-- ==== Sys2Proof/Word.lean ====
section
/-! DEFINITION. The two data types of the hardware: bytes and 16-byte blocks (00_scope.md R4, R7). -/

namespace Sys2Proof

/-- A byte, 8 bits, bit 7 most significant (00_scope.md R7). -/
abbrev Byte := BitVec 8

/-- A block: B = 16 bytes as the 8·B-bit vector `bits[127:0]`, one big-endian integer (00_scope.md R4, R7).
Byte `i` is read by `Machine.byteOf` (Machine/Bytes.lean). -/
abbrev Block := BitVec 128

end Sys2Proof
end

