-- ==== Sys2Proof/Config.lean ====
section
/-! DEFINITION. What an implementation fixes (00_scope.md R4, R5, R6) and the free values, which have no body: nothing can be
proved of them. -/

namespace Sys2Proof.Config

/-- Parameter B, the block size in bytes; 16 is the only value with a meaning (00_scope.md R4, decisions D1, D2; log 10). -/
abbrev blockSize : Nat := 16

/-- Parameter CMP_MAX, the largest operand of CMP in bytes (00_scope.md R5, decision D19; log 10). -/
abbrev cmpMax : Nat := 16

/-- FREE VALUES. The block cipher under each key, a key being named by a number: a total function on blocks of which only
determinism is assumed (00_scope.md R6, 20_memory.md R58; log 3). -/
opaque cipherUnderKey : Nat → Block → Block

/-- FREE VALUES. What K1 and K2 hold where the spec calls them unspecified: the `n`-th such value (10_state.md R34,
40_init_subkeys.md R105, 70_reset_and_hazards.md R210; 93_implementation_defined.md U4, "any value"; log 5). -/
opaque unspecifiedBlock : Nat → Block

end Sys2Proof.Config
end

