-- ==== Sys2Proof/Machine/Bytes.lean ====
section
/-! DEFINITION. Byte order inside a block and on every lane group, decided here once: byte 0 is the most significant
(00_scope.md R7, 20_memory.md R52). -/

namespace Sys2Proof.Machine

/-- How far byte `i` of a block lies above bit 0: `v[i] = bits[8(B-1-i)+7 : 8(B-1-i)]` (00_scope.md R7). -/
def byteShift (i : Nat) : Nat := 8 * (Config.blockSize - 1 - i)

/-- Byte `v[i]`; an index outside 0..B-1 names no byte and reads as zero (no rule uses one). -/
def byteOf (v : Block) (i : Nat) : Byte :=
  if i < Config.blockSize then (v >>> byteShift i).setWidth 8 else 0

/-- `v[i] <- b` (00_scope.md R11); an index outside 0..B-1 names no byte and writes nothing. -/
def setByte (v : Block) (i : Nat) (b : Byte) : Block :=
  if i < Config.blockSize then
    (v &&& ~~~((0xFF#128) <<< byteShift i)) ||| (b.setWidth 128 <<< byteShift i)
  else v

/-- `v[off..off+|bs|) <- bs` (41_update.md R124; a copy, decision D13). -/
def copyBytes (v : Block) (off : Nat) : List Byte → Block
  | [] => v
  | b :: bs => copyBytes (setByte v off b) (off + 1) bs

/-- The block whose first bytes are `bs` and whose remaining bytes are zero. -/
def blockOf (bs : List Byte) : Block := copyBytes 0 0 bs

/-- The bytes of lanes `0..len-1` of a lane group (30_encoding.md R71, 20_memory.md R54). -/
def laneBytes (v : Block) (len : Nat) : List Byte := (List.range len).map (byteOf v)

end Sys2Proof.Machine
end

