-- ==== Sys2Proof/Syntax.lean ====
section
/-! DEFINITION. The commands as the port carries them (30_encoding.md R70) and as the engine runs them: one constructor of
`Instr` for every row of spec/opcode_table.json. -/

namespace Sys2Proof

/-- One command as sampled at acceptance: the triple (`cmd_hdr`, `cmd_a`, `cmd_b`), DW = 16 bytes a lane group
(30_encoding.md R70, R71; 20_memory.md R63). -/
structure Command where
  hdr : BitVec 32
  a : Block
  b : Block
  deriving DecidableEq, Repr

/-- A decoded command (30_encoding.md R72). Operand bytes are listed byte 0 first; `len` and `len2` are the lists' lengths,
and lanes at or beyond them are already dropped (R71; log 21). -/
inductive Instr where
  /-- INIT, op 0x1 (40_init_subkeys.md R100). -/
  | init
  /-- UPDATE, op 0x2: one beat of message bytes (41_update.md R120). -/
  | update (m : List Byte)
  /-- FINAL, op 0x3 (42_final.md R140). -/
  | final
  /-- RESET, op 0x4: the message reset, not the hardware reset input (43_reset_tagsize.md R155). -/
  | reset
  /-- TAGSIZE, op 0x5 (43_reset_tagsize.md R158). -/
  | tagsize
  /-- CMP, op 0x6: two operands (44_compare.md R165). -/
  | cmp (a b : List Byte)
  deriving DecidableEq, Repr

end Sys2Proof
end

