-- ==== Sys2Proof/WellFormed.lean ====
section
/-! DEFINITION. Which commands the port can carry (30_encoding.md R73). -/

namespace Sys2Proof

/-- The operand lengths a header can spell: UPDATE 0..B bytes, CMP 0..CMP_MAX bytes on each side (30_encoding.md R73). -/
def Instr.wf : Instr → Bool
  | .init => true
  | .update m => decide (m.length ≤ Config.blockSize)
  | .final => true
  | .reset => true
  | .tagsize => true
  | .cmp a b => decide (a.length ≤ Config.cmpMax) && decide (b.length ≤ Config.cmpMax)

end Sys2Proof
end

