-- ==== Sys2Proof/Decode.lean ====
section
/-! DEFINITION. The decoder (30_encoding.md R70 to R76), total on every header and every lane content, and after it the encoder,
written from the same field table. -/

namespace Sys2Proof

/-- Field `op`, [31:28] (30_encoding.md R70). -/
def headerOp (h : BitVec 32) : BitVec 4 := h.extractLsb' 28 4

/-- Field `rsv`, [27:16]. -/
def headerRsv (h : BitVec 32) : BitVec 12 := h.extractLsb' 16 12

/-- Field `len2`, [15:8]. -/
def headerLen2 (h : BitVec 32) : Byte := h.extractLsb' 8 8

/-- Field `len`, [7:0]. -/
def headerLen (h : BitVec 32) : Byte := h.extractLsb' 0 8

/-- Why a header is illegal, each a clause of 30_encoding.md R75. All are answered ERR_ILLEGAL; the names are the model's. -/
inductive DecodeError where
  /-- `op` is 0x0 or 0x7..0xF. -/
  | reservedOpcode
  /-- `rsv` is not zero. -/
  | reservedBits
  /-- INIT, FINAL, RESET or TAGSIZE with a length that is not zero. -/
  | lengthWithoutOperand
  /-- UPDATE with `len2` not zero. -/
  | updateSecondLength
  /-- UPDATE with `len` > B. -/
  | updateTooLong
  /-- CMP with `len` or `len2` > CMP_MAX. -/
  | cmpTooLong
  deriving DecidableEq, Repr

/-- A command without operands: both lengths must be zero (30_encoding.md R73). -/
def decodePlain (h : BitVec 32) (i : Instr) : Except DecodeError Instr :=
  if headerLen2 h = 0 ∧ headerLen h = 0 then .ok i else .error .lengthWithoutOperand

/-- UPDATE: `len2` = 0 and `len` ≤ B; the message bytes are `cmd_a[0..len)` (30_encoding.md R71, R73). -/
def decodeUpdate (c : Command) : Except DecodeError Instr :=
  if headerLen2 c.hdr ≠ 0 then .error .updateSecondLength
  else if Config.blockSize < (headerLen c.hdr).toNat then .error .updateTooLong
  else .ok (.update (Machine.laneBytes c.a (headerLen c.hdr).toNat))

/-- CMP: both lengths ≤ CMP_MAX; the operands are `cmd_a[0..len)` and `cmd_b[0..len2)` (30_encoding.md R71, R73). -/
def decodeCmp (c : Command) : Except DecodeError Instr :=
  if Config.cmpMax < (headerLen c.hdr).toNat ∨ Config.cmpMax < (headerLen2 c.hdr).toNat then .error .cmpTooLong
  else .ok (.cmp (Machine.laneBytes c.a (headerLen c.hdr).toNat) (Machine.laneBytes c.b (headerLen2 c.hdr).toNat))

/-- The decoder: every header is one command or is rejected by name (30_encoding.md R72, R75). -/
def decode (c : Command) : Except DecodeError Instr :=
  if headerRsv c.hdr ≠ 0 then .error .reservedBits
  else match (headerOp c.hdr).toNat with
    | 1 => decodePlain c.hdr .init
    | 2 => decodeUpdate c
    | 3 => decodePlain c.hdr .final
    | 4 => decodePlain c.hdr .reset
    | 5 => decodePlain c.hdr .tagsize
    | 6 => decodeCmp c
    | _ => .error .reservedOpcode

/-- A header from its fields, `rsv` zero (30_encoding.md R70). -/
def header (op : BitVec 4) (len2 len : Byte) : BitVec 32 := op ++ 0#12 ++ len2 ++ len

/-- The encoder: the command that spells an instruction, unused lanes zero (30_encoding.md R70 to R73; log 21). -/
def encode : Instr → Command
  | .init => ⟨header 1 0 0, 0, 0⟩
  | .update m => ⟨header 2 0 (BitVec.ofNat 8 m.length), Machine.blockOf m, 0⟩
  | .final => ⟨header 3 0 0, 0, 0⟩
  | .reset => ⟨header 4 0 0, 0, 0⟩
  | .tagsize => ⟨header 5 0 0, 0, 0⟩
  | .cmp a b => ⟨header 6 (BitVec.ofNat 8 b.length) (BitVec.ofNat 8 a.length), Machine.blockOf a, Machine.blockOf b⟩

/-- One row of the opcode table as the table prints it: a header belongs to the row when `hdr &&& mask = value`. -/
structure OpcodeRow where
  mnemonic : String
  value : BitVec 32
  mask : BitVec 32
  deriving DecidableEq, Repr

/-- The `match` and `mask` of spec/opcode_table.json, row by row (30_encoding.md R72). The decoder does not read this list; the
laws hold it against the decoder. -/
def opcodeTable : List OpcodeRow :=
  [⟨"INIT", 0x10000000, 0xFFFFFFFF⟩, ⟨"UPDATE", 0x20000000, 0xFFFFFF00⟩, ⟨"FINAL", 0x30000000, 0xFFFFFFFF⟩,
   ⟨"RESET", 0x40000000, 0xFFFFFFFF⟩, ⟨"TAGSIZE", 0x50000000, 0xFFFFFFFF⟩, ⟨"CMP", 0x60000000, 0xFFFF0000⟩]

/-- The row of the opcode table an instruction stands in. -/
def Instr.mnemonic : Instr → String
  | .init => "INIT"
  | .update _ => "UPDATE"
  | .final => "FINAL"
  | .reset => "RESET"
  | .tagsize => "TAGSIZE"
  | .cmp _ _ => "CMP"

/-- The command whose bits are `w`, bit 0 the least significant bit of `cmd_hdr`; `nbits` of them are given and every bit above
is zero. `cmd_a` counts on above the header, then `cmd_b` (log 19). -/
def commandOfWord (nbits w : Nat) : Command :=
  let v := w % 2 ^ nbits
  ⟨BitVec.ofNat 32 v, BitVec.ofNat 128 (v / 2 ^ 32), BitVec.ofNat 128 (v / 2 ^ 160)⟩

/-- What the decoder reads from the command whose bits are `w`. -/
def decodeTableWord (nbits w : Nat) : Option Instr :=
  match decode (commandOfWord nbits w) with
  | .ok i => some i
  | .error _ => none

end Sys2Proof
end

