-- ==== Sys2Proof/Machine/State.lean ====
section
/-! DEFINITION. The state of the machine as plain data: the six registers of the engine (10_state.md R20), the hidden state and
the ports its interface exposes (R33, 20_memory.md R51), and the outside world's side of those ports. -/

namespace Sys2Proof.Machine

/-- The response statuses; 0x4..0xF are never produced and have no constructor (30_encoding.md R74, 60_exceptions.md R181). -/
inductive Status where
  /-- 0x0 OK. -/
  | ok
  /-- 0x1 ERR_KEY: the document's `KeyError` (R182). -/
  | errKey
  /-- 0x2 ERR_NOT_KEYED (R183). -/
  | errNotKeyed
  /-- 0x3 ERR_ILLEGAL (R184). -/
  | errIllegal
  deriving DecidableEq, Repr

/-- One response: `rsp_status` and `rsp_data` (30_encoding.md R74). -/
structure Response where
  status : Status
  data : Block
  deriving DecidableEq, Repr

/-- A command that has been accepted and waits for the cipher: BUSY = 1 and one outstanding request (10_state.md R33,
20_memory.md R57). -/
structure Inflight where
  /-- The command in progress, its operands sampled at acceptance (20_memory.md R63). -/
  cmd : Instr
  /-- `ciph_req_block`. -/
  request : Block
  /-- Whether the cipher has taken the request: `ciph_req_valid` is 1 until it has (20_memory.md R57). -/
  sent : Bool
  deriving DecidableEq, Repr

/-- The cipher's side of the cipher port (00_scope.md R6, 20_memory.md R51, R57, R58). It is the environment's, not the
engine's. The function E is `Cipher.encrypt` (Machine/Ops.lean): the answer the table lists for a block, else that of the
opaque cipher under the key; every total function on blocks is some table (log 3). -/
structure Cipher where
  /-- The level `ciph_key_ok`. -/
  keyOk : Bool
  /-- The level `ciph_req_ready`. -/
  reqReady : Bool
  /-- `ciph_rsp_valid`: the cipher answers a request it has taken. -/
  rspValid : Bool
  /-- Which key is bound. -/
  key : Nat
  /-- Blocks whose answers are listed. -/
  table : List (Block × Block)
  deriving DecidableEq, Repr

/-- One thing the outside world does at the engine's ports (00_scope.md R12, 20_memory.md R51). -/
inductive Input where
  /-- The host drives the command port: a command with `cmd_valid` = 1, or none with `cmd_valid` = 0. -/
  | drive (c : Option Command)
  /-- The host takes the response (`rsp_ready` = 1). -/
  | take
  /-- The cipher's side of its port changes: keyed anew, `ciph_key_ok`, readiness. -/
  | cipher (c : Cipher)
  /-- Hardware reset, `rst` = 1 (70_reset_and_hazards.md R210). -/
  | rst
  deriving DecidableEq, Repr

structure State where
  /-- K1 (10_state.md R21). -/
  k1 : Block
  /-- K2 (R22). -/
  k2 : Block
  /-- X, the chaining value (R23). -/
  x : Block
  /-- P, the pending block (R24). -/
  p : Block
  /-- N, the pending length (R25). -/
  n : BitVec 5
  /-- KEYED (R26). -/
  keyed : Bool
  /-- BUSY and the outstanding cipher request (R33; 20_memory.md R57). -/
  inflight : Option Inflight
  /-- The response port: a response is there while `rsp_valid` = 1 (20_memory.md R51, R63). -/
  rsp : Option Response
  /-- The command port: a command is there while `cmd_valid` = 1 (20_memory.md R51). -/
  cmd : Option Command
  /-- The cipher's side of the cipher port (20_memory.md R51, R57). -/
  cipher : Cipher
  /-- What the outside world does next, first entry first (the model's own; log 1). -/
  inputs : List Input
  /-- How many free values have been drawn (the model's own; log 5). -/
  draws : Nat
  deriving DecidableEq, Repr

/-- The machine has no fault: "There are no traps"; an error is the status of a response and the next command is executed as if
the failed one had never been presented (60_exceptions.md R180). Nobody raises one (safe; log 18). -/
inductive Fault where
  deriving DecidableEq, Repr

/-- Why the model gives a step no meaning. -/
inductive Refusal where
  /-- Raised by `exec` alone, for an instruction that has no meaning yet: safe, the model claims nothing of it. Every
  instruction has its meaning, so nothing raises it (log 18). -/
  | notModelled (mnemonic : String)
  deriving DecidableEq, Repr

/-- The cipher's side as State.reset finds it: keyed and answering (DESIGN CHOICE, unsafe; log 4). -/
def Cipher.atReset : Cipher where
  keyOk := true
  reqReady := true
  rspValid := true
  key := 0
  table := []

/-- The machine right after hardware reset (10_state.md R34, 70_reset_and_hazards.md R210): KEYED, X, P, N zero, nothing in
progress, no response; K1 and K2 unspecified (free values; log 5). The host drives nothing and schedules nothing (log 15). -/
def State.reset : State where
  k1 := Config.unspecifiedBlock 0
  k2 := Config.unspecifiedBlock 1
  x := 0
  p := 0
  n := 0
  keyed := false
  inflight := none
  rsp := none
  cmd := none
  cipher := Cipher.atReset
  inputs := []
  draws := 2

end Sys2Proof.Machine
end

