-- ==== Sys2Proof/Machine/Flags.lean ====
section
/-! DEFINITION. The only flag of the hardware is KEYED (10_state.md R26, R29): there are no condition codes. Here stand its test
and the numbers of the response statuses. -/

namespace Sys2Proof.Machine

/-- `rsp_status[3:0]` of a status (30_encoding.md R74). -/
def Status.code : Status → BitVec 4
  | .ok => 0
  | .errKey => 1
  | .errNotKeyed => 2
  | .errIllegal => 3

/-- KEYED as the bit it is (10_state.md R26). -/
def State.keyedBit (s : State) : BitVec 1 := BitVec.ofBool s.keyed

end Sys2Proof.Machine
end

