-- ==== Sys2Proof/Machine/Operands.lean ====
section
/-! DEFINITION. The block arithmetic of 00_scope.md R8 to R10, the data part of UPDATE (41_update.md R121 to R124) and of FINAL
(42_final.md R141 to R143), and the comparator's function (44_compare.md R166, R167), as functions of their operands. `E` is
the bound cipher. -/

namespace Sys2Proof.Machine

/-- `msb(v)`: bit 8B-1, which is bit 7 of `v[0]` (00_scope.md R7). -/
def blockMsb (v : Block) : Bool := v.msb

/-- SHL1, the document's `ShiftLeftOneBit`: the block as one big-endian integer, a zero entering at bit 0 (00_scope.md R9). -/
def shl1 (v : Block) : Block := v <<< 1

/-- RB = `00…0087` (00_scope.md R10). -/
def rb : Block := 0x87

/-- DBL: shift, then xor RB if the most significant bit BEFORE the shift was 1 (00_scope.md R10). -/
def dbl (v : Block) : Block := if blockMsb v then shl1 v ^^^ rb else shl1 v

/-- The message registers X, P, N together. -/
structure MsgState where
  x : Block
  p : Block
  n : BitVec 5
  deriving DecidableEq, Repr

/-- The state of an empty message (41_update.md R126). -/
def MsgState.empty : MsgState := ⟨0, 0, 0⟩

/-- The condition of step 1 of `update(m)`, strict excess: N + |m| > B (41_update.md R122; 90_conflicts.md C2). -/
def flushes (n : BitVec 5) (m : List Byte) : Bool := decide (Config.blockSize < n.toNat + m.length)

/-- k = B - N, how many bytes complete the pending block (41_update.md R121). -/
def room (n : BitVec 5) : Nat := Config.blockSize - n.toNat

/-- The block step 1 sends to the cipher: X xor the completed P (41_update.md R122). -/
def flushBlock (a : MsgState) (m : List Byte) : Block :=
  a.x ^^^ copyBytes a.p a.n.toNat (m.take (room a.n))

/-- Step 2 of `update(m)`: while |m| > B, X <- E(X xor m[0..B)) and drop those bytes (41_update.md R123). The first argument
bounds the iterations; |m| of them always suffice. -/
def flushWhole (E : Block → Block) : Nat → Block → List Byte → Block × List Byte
  | 0, x, m => (x, m)
  | fuel + 1, x, m =>
    if Config.blockSize < m.length then
      flushWhole E fuel (E (x ^^^ blockOf (m.take Config.blockSize))) (m.drop Config.blockSize)
    else (x, m)

/-- Step 3 of `update(m)`: P[N..N+|r|) <- r, N <- N + |r| (41_update.md R124; a copy, decision D13). -/
def keepTail (a : MsgState) (r : List Byte) : MsgState :=
  { a with p := copyBytes a.p a.n.toNat r, n := BitVec.ofNat 5 (a.n.toNat + r.length) }

/-- `update(m)` for a byte string of any length (41_update.md R121). The flush clears P and N (decision D12). -/
def absorb (E : Block → Block) (a : MsgState) (m : List Byte) : MsgState :=
  if flushes a.n m then
    let r := m.drop (room a.n)
    let w := flushWhole E r.length (E (flushBlock a m)) r
    keepTail ⟨w.1, 0, 0⟩ w.2
  else keepTail a m

/-- The scratch block S of FINAL: P xor X, then xor K1 if N = B, else xor K2 and 0x80 into byte N (42_final.md R141 to R143). -/
def scratchBlock (k1 k2 : Block) (a : MsgState) : Block :=
  let s := a.p ^^^ a.x
  if a.n.toNat = Config.blockSize then s ^^^ k1
  else
    let s := s ^^^ k2
    setByte s a.n.toNat (byteOf s a.n.toNat ^^^ 0x80)

/-- The running OR of byte-wise XOR over both operands (44_compare.md R167). -/
def orOfXors (acc : Byte) : List Byte → List Byte → Byte
  | x :: xs, y :: ys => orOfXors (acc ||| (x ^^^ y)) xs ys
  | _, _ => acc

/-- `ct_equal`, by the method of 44_compare.md R167. -/
def ctEqual (a b : List Byte) : Bool :=
  if a.length ≠ b.length then false else orOfXors 0 a b == 0

/-- `zext_8B` of a natural number that fits: integers on the response port (20_memory.md R53). -/
def zext (v : Nat) : Block := BitVec.ofNat 128 v

end Sys2Proof.Machine
end

