-- ==== Sys2Proof/Machine/Ops.lean ====
section
/-! DEFINITION. The named operations over the registers and the ports, shared by the meanings. -/

namespace Sys2Proof.Machine

/-- The bound cipher's function E (00_scope.md R6, 20_memory.md R58; log 3). -/
def Cipher.encrypt (c : Cipher) (v : Block) : Block :=
  match c.table.lookup v with
  | some w => w
  | none => Config.cipherUnderKey c.key v

/-- E as the engine sees it now. -/
def State.encrypt (s : State) : Block → Block := s.cipher.encrypt

/-- The cipher takes and answers a request as soon as it is made (20_memory.md R57). -/
def State.cipherAnswers (s : State) : Bool := s.cipher.reqReady && s.cipher.rspValid

/-- BUSY: a command has been accepted and its response has not been produced (10_state.md R33). -/
def State.busy (s : State) : Bool := s.inflight.isSome

/-- `rsp_valid`. -/
def State.rspValid (s : State) : Bool := s.rsp.isSome

/-- `cmd_ready`: 0 from the acceptance of a command until its response has been taken (20_memory.md R61). -/
def State.cmdReady (s : State) : Bool := s.inflight.isNone && s.rsp.isNone

/-- `ciph_req_valid`: a request is presented and not yet taken (20_memory.md R57). -/
def State.ciphReqValid (s : State) : Bool :=
  match s.inflight with
  | some f => !f.sent
  | none => false

/-- X, P, N as one value. -/
def State.msg (s : State) : MsgState := ⟨s.x, s.p, s.n⟩

/-- X, P, N written together. -/
def State.withMsg (s : State) (a : MsgState) : State := { s with x := a.x, p := a.p, n := a.n }

/-- `respond(status, data)`: the command's single response (00_scope.md R11, 30_encoding.md R74). -/
def State.respond (s : State) (st : Status) (d : Block) : State := { s with rsp := some ⟨st, d⟩ }

/-- `raise <Error>`, all there is of an exception here: no state change, data 0, nothing saved, no transfer of control
(00_scope.md R11, 60_exceptions.md R180, R188). There is nothing to return from (R189). -/
def State.raise (s : State) (e : Status) : State := s.respond e 0

/-- X <- 0^B, P <- 0^B, N <- 0 (43_reset_tagsize.md R155, 40_init_subkeys.md R104). -/
def State.clearMessage (s : State) : State := s.withMsg MsgState.empty

/-- K1 and K2 become unspecified: two fresh free values (10_state.md R34; log 5). -/
def State.forgetSubkeys (s : State) : State :=
  { s with k1 := Config.unspecifiedBlock s.draws, k2 := Config.unspecifiedBlock (s.draws + 1), draws := s.draws + 2 }

/-- No engine: KEYED <- 0, message state zero, subkeys unspecified (40_init_subkeys.md R105, 70_reset_and_hazards.md R210). -/
def State.dropEngine (s : State) : State := { s.clearMessage.forgetSubkeys with keyed := false }

/-- Run a command that needs an engine: while KEYED = 0 it is refused with ERR_NOT_KEYED and does nothing
(60_exceptions.md R183). -/
def State.ifKeyed (s : State) (run : State → State) : State := if s.keyed then run s else s.raise .errNotKeyed

/-- `E(v)` inside a command: where the cipher takes and answers the request at once, the command finishes in the same step by
`done`; otherwise it stays in flight with this one request outstanding and no register written (20_memory.md R55, R57, R61;
log 6). -/
def State.request (s : State) (i : Instr) (v : Block) (done : State → State) : State :=
  if s.cipherAnswers then done s else { s with inflight := some ⟨i, v, s.cipher.reqReady⟩ }

/-- Hardware reset, `rst` = 1: the engine's registers and handshakes at their reset values, K1 and K2 unspecified, a command in
progress abandoned without a response. The host's wires and the cipher are not the engine's and stay
(70_reset_and_hazards.md R210, R220; log 15). -/
def State.hardwareReset (s : State) : State := { s.dropEngine with inflight := none, rsp := none }

/-- What one thing the outside world does changes. Taking where no response is valid is no transfer (20_memory.md R51, R61;
log 14, log 17). -/
def State.applyInput (s : State) : Input → State
  | .drive c => { s with cmd := c }
  | .take => { s with rsp := none }
  | .cipher c => { s with cipher := c }
  | .rst => s.hardwareReset

/-- The outside world acts: the next entry of its schedule. With none left the engine waits, and "all registers hold their
values indefinitely" (60_exceptions.md R195; log 1). -/
def State.nextInput (s : State) : State :=
  match s.inputs with
  | [] => s
  | e :: rest => ({ s with inputs := rest }).applyInput e

end Sys2Proof.Machine
end

