-- ==== Sys2Proof/Machine/Accumulate.lean ====
section
/-! DEFINITION. UPDATE (41_update.md). -/

namespace Sys2Proof.Machine

/-- UPDATE's whole effect, its cipher requests answered: (X, P, N) by `update(m)`, response len
(41_update.md R120, R121, R128). -/
def finishUpdate (m : List Byte) (s : State) : State :=
  (s.withMsg (absorb s.encrypt s.msg m)).respond .ok (zext m.length)

/-- UPDATE: refused while KEYED = 0; makes a cipher request exactly when N + len > B (41_update.md R120). -/
def execUpdate (m : List Byte) (s : State) : Host.Outcome State Fault Refusal :=
  .next (s.ifKeyed fun s =>
    if flushes s.n m then s.request (.update m) (flushBlock s.msg m) (finishUpdate m) else finishUpdate m s)

end Sys2Proof.Machine
end

