-- ==== Sys2Proof/Machine/Compare.lean ====
section
/-! DEFINITION. CMP (44_compare.md). -/

namespace Sys2Proof.Machine

/-- CMP: responds 1 if the operands are equal, else 0, in any state; reads and writes no register, no cipher request
(44_compare.md R165, R170). -/
def execCmp (a b : List Byte) (s : State) : Host.Outcome State Fault Refusal :=
  .next (s.respond .ok (if ctEqual a b then zext 1 else zext 0))

end Sys2Proof.Machine
end

