-- ==== Sys2Proof/Machine/Control.lean ====
section
/-! DEFINITION. RESET and TAGSIZE (43_reset_tagsize.md). -/

namespace Sys2Proof.Machine

/-- RESET: X, P, N zero; K1, K2, KEYED as they were; refused while KEYED = 0 (43_reset_tagsize.md R155). -/
def execReset (s : State) : Host.Outcome State Fault Refusal :=
  .next (s.ifKeyed fun s => s.clearMessage.respond .ok 0)

/-- TAGSIZE: responds B, in any state (43_reset_tagsize.md R158). -/
def execTagsize (s : State) : Host.Outcome State Fault Refusal :=
  .next (s.respond .ok (zext Config.blockSize))

end Sys2Proof.Machine
end

