-- ==== Sys2Proof/Machine/Finalize.lean ====
section
/-! DEFINITION. FINAL (42_final.md). -/

namespace Sys2Proof.Machine

/-- The scratch block FINAL sends to the cipher (42_final.md R141 to R143). -/
def finalRequest (s : State) : Block := scratchBlock s.k1 s.k2 s.msg

/-- FINAL once the cipher has answered: the tag is the response and nothing else changes (42_final.md R144, R145). -/
def finishFinal (s : State) : State := s.respond .ok (s.encrypt (finalRequest s))

/-- FINAL: refused while KEYED = 0; exactly one cipher request (42_final.md R140). -/
def execFinal (s : State) : Host.Outcome State Fault Refusal :=
  .next (s.ifKeyed fun s => s.request .final (finalRequest s) finishFinal)

end Sys2Proof.Machine
end

