-- ==== Sys2Proof/Machine/Subkeys.lean ====
section
/-! DEFINITION. INIT (40_init_subkeys.md). -/

namespace Sys2Proof.Machine

/-- INIT once the cipher has answered L = E(0^B): K1 = DBL(L), K2 = DBL(DBL(L)), message state zero, KEYED = 1
(40_init_subkeys.md R101 to R104). L is not kept (decision D30). -/
def finishInit (s : State) : State :=
  let l := s.encrypt 0
  ({ s.clearMessage with k1 := dbl l, k2 := dbl (dbl l), keyed := true }).respond .ok 0

/-- INIT: `key_ok` is read once, at the start; 0 is the construction failure (40_init_subkeys.md R100, R105, R106). -/
def execInit (s : State) : Host.Outcome State Fault Refusal :=
  .next (if s.cipher.keyOk then s.request .init 0 finishInit else s.dropEngine.raise .errKey)

end Sys2Proof.Machine
end

