-- ==== Sys2Proof/Machine/Dispatch.lean ====
section
/-! DEFINITION. One arm per command. -/

namespace Sys2Proof.Machine

/-- The meaning of a command that has been accepted with a legal header. -/
def exec (i : Instr) (s : State) : Host.Outcome State Fault Refusal :=
  match i with
  | .init => Sys2Proof.Machine.execInit s
  | .update m => Sys2Proof.Machine.execUpdate m s
  | .final => Sys2Proof.Machine.execFinal s
  | .reset => Sys2Proof.Machine.execReset s
  | .tagsize => Sys2Proof.Machine.execTagsize s
  | .cmp a b => Sys2Proof.Machine.execCmp a b s

end Sys2Proof.Machine
end

