-- ==== Sys2Proof/Machine/Ports.lean ====
section
/-! DEFINITION. How commands get in and finish: acceptance (30_encoding.md R79, 20_memory.md R61), the cipher port
(20_memory.md R57) and the order in which the agents take their turns (00_scope.md R12; log 1, log 16). -/

namespace Sys2Proof.Machine

/-- A command is accepted: the header is tested first; an illegal one changes nothing and answers ERR_ILLEGAL, a legal one is
executed (30_encoding.md R75, R79; 60_exceptions.md R184, R187). -/
def acceptCommand (c : Command) (s : State) : Host.Outcome State Fault Refusal :=
  match decode c with
  | .ok i => exec i s
  | .error _ => .next (s.raise .errIllegal)

/-- The rest of a command whose cipher request has been answered. RESET, TAGSIZE and CMP make no request, so they are never in
flight and have no rest (20_memory.md R57). -/
def finishCommand (i : Instr) (s : State) : State :=
  match i with
  | .init => finishInit s
  | .update m => finishUpdate m s
  | .final => finishFinal s
  | .reset => s
  | .tagsize => s
  | .cmp _ _ => s

/-- A command in flight: when its request is taken and answered it finishes; when the request is only taken,
`ciph_req_valid` falls; otherwise the command waits and the outside world acts (20_memory.md R57, R61; log 6). -/
def serveCipher (f : Inflight) (s : State) : State :=
  if (f.sent || s.cipher.reqReady) && s.cipher.rspValid then finishCommand f.cmd { s with inflight := none }
  else if s.cipher.reqReady && !f.sent then { s with inflight := some { f with sent := true } }
  else s.nextInput

/-- The engine's turn: finish or advance a command in flight; else accept a presented command if `cmd_ready` = 1; else wait for
the outside world. -/
def engineTurn (s : State) : Host.Outcome State Fault Refusal :=
  match s.inflight, s.rsp, s.cmd with
  | some f, _, _ => .next (serveCipher f s)
  | none, none, some c => acceptCommand c { s with cmd := none }
  | none, some _, _ => .next s.nextInput
  | none, none, none => .next s.nextInput

/-- One step of the machine. Hardware reset has priority over everything: where it is what happens next, it is taken instead of
any step of the engine (60_exceptions.md R187, 70_reset_and_hazards.md R210, R220; log 16). -/
def portStep (s : State) : Host.Outcome State Fault Refusal :=
  match s.inputs with
  | .rst :: rest => .next ({ s with inputs := rest }).hardwareReset
  | _ => engineTurn s

/-- A command presented on an idle command port, no hardware reset being next (log 2). -/
def State.presenting (s : State) (c : Command) : State :=
  { s with cmd := some c, inflight := none, rsp := none, inputs := s.inputs.dropWhile (fun e => decide (e = Input.rst)) }

end Sys2Proof.Machine
end

