-- ==== Sys2Proof/Machine/Step.lean ====
section
/-! DEFINITION. One step of the machine, and how the host places a command where the next step accepts it. -/

namespace Sys2Proof.Machine

/-- One step: `portStep` (Machine/Ports.lean). -/
def step (s : State) : Host.Outcome State Fault Refusal := portStep s

/-- `s` with the command whose bits are `w` presented on an idle command port: the very next step accepts it. There is no
program counter; a program is whatever the host presents (10_state.md R28; log 2). -/
def State.withFetchWord (s : State) (nbits w : Nat) : State := s.presenting (commandOfWord nbits w)

end Sys2Proof.Machine
end

