-- ==== Sys2Proof/Machine/Script.lean ====
section
/-! DEFINITION. The host's side of the spec's command scripts (30_encoding.md R77) and pseudo-commands (R78): what the host
drives and in which order. Nothing of the engine is defined here. -/

namespace Sys2Proof.Machine

/-- One line of a command script (30_encoding.md R77); the environment of an INIT line is the cipher set up before it. -/
inductive ScriptLine where
  /-- A command line: `INIT`, `UPDATE <hex>`, `FINAL`, `RESET`, `TAGSIZE`, `CMP <hexa>, <hexb>`. -/
  | command (i : Instr)
  /-- `HWRESET`. -/
  | hwreset
  /-- `RAW <hdr>`: this header, all lanes zero. -/
  | raw (hdr : BitVec 32)
  /-- The cipher stated above a script, or a new value of `key_ok` at an INIT. -/
  | environment (c : Cipher)
  deriving DecidableEq, Repr

/-- What the host does for a line: it presents the command and takes its response (30_encoding.md R77). The cipher is one that
answers; with one that does not, the host would wait before it takes. -/
def ScriptLine.inputs : ScriptLine → List Input
  | .command i => [.drive (some (encode i)), .take]
  | .hwreset => [.rst]
  | .raw h => [.drive (some ⟨h, 0, 0⟩), .take]
  | .environment c => [.cipher c]

/-- Consecutive pieces of B bytes, the last holding the remaining 1..B bytes; no piece for the empty string
(30_encoding.md R78). The first argument bounds the number of pieces; |m| of them always suffice. -/
def pieces : Nat → List Byte → List (List Byte)
  | 0, _ => []
  | fuel + 1, m => if m.length = 0 then [] else m.take Config.blockSize :: pieces fuel (m.drop Config.blockSize)

/-- `UPDATE*` (30_encoding.md R78). -/
def updateStar (m : List Byte) : List Instr := (pieces m.length m).map .update

/-- `MAC`: RESET, UPDATE*, FINAL; its result is the FINAL response (30_encoding.md R78). -/
def macCommands (m : List Byte) : List Instr := .reset :: updateStar m ++ [.final]

/-- A host that issues commands one after another, taking each response before the next command (20_memory.md R56). It stops at
a command that waits for the cipher. -/
def execAll : List Instr → State → Host.Outcome State Fault Refusal
  | [], s => .next s
  | i :: is, s =>
    match exec i { s with rsp := none } with
    | .next t => if t.inflight.isSome then .next t else execAll is t
    | .fault r => .fault r
    | .refused r => .refused r

/-- What the port answers to a command as the host spells it: one that no legal header spells is illegal and answered
(ERR_ILLEGAL, 0) with nothing changed (30_encoding.md R73, R75). For more than 255 bytes, which no header spells at all, that answer is
the model's (DESIGN CHOICE; log 23). -/
def issueSpelled (i : Instr) (s : State) : Host.Outcome State Fault Refusal :=
  if i.wf then exec i s else .next (s.raise .errIllegal)

/-- `VERIFY`: MAC, then CMP of the tag FINAL returned, copied by the host, with the tag received (30_encoding.md R78,
44_compare.md R170). DESIGN CHOICE (log 22): the spec speaks only of the tag FINAL returned and is silent on a FINAL that answers
an error, as on an engine without a key; the host then goes on with the sequence as written and copies the response's data, which
is 0, so that a received tag of sixteen zero bytes is answered 1. DESIGN CHOICE (log 23): R78 is silent on a received tag longer
than CMP_MAX; the host issues its CMP nevertheless, and the port answers that illegal header with ERR_ILLEGAL. -/
def execVerify (m tag : List Byte) (s : State) : Host.Outcome State Fault Refusal :=
  match execAll (macCommands m) s with
  | .next t =>
    match t.rsp with
    | some r => issueSpelled (.cmp (laneBytes r.data Config.blockSize) tag) { t with rsp := none }
    | none => .next t
  | .fault r => .fault r
  | .refused r => .refused r

end Sys2Proof.Machine
end

