-- ==== Sys2Proof/Safety.lean ====
section
/-! DEFINITION. What claims are stated in: the invariant of 10_state.md R30 with the well-formedness of the ports, and the closed
forms of the message state (41_update.md R129) and of the tag (42_final.md R147). -/

namespace Sys2Proof.Machine

/-- Bytes `P[N..B)` are zero (10_state.md R30(b)). -/
abbrev TailZero (p : Block) (n : BitVec 5) : Prop := ∀ i < Config.blockSize, n.toNat ≤ i → byteOf p i = 0

/-- The message state between commands: N ≤ B and a zero tail (10_state.md R30(a), (b)). -/
abbrev MsgState.Ok (a : MsgState) : Prop := a.n.toNat ≤ Config.blockSize ∧ TailZero a.p a.n

/-- A command in flight is one that makes a cipher request, in a state where it does, with the request its rule forms
(20_memory.md R57): INIT sends 0^B, UPDATE the completed block, FINAL the scratch block. -/
def inflightOk (f : Inflight) (s : State) : Bool :=
  match f.cmd with
  | .init => decide (f.request = 0)
  | .update m => s.keyed && flushes s.n m && decide (f.request = flushBlock s.msg m) && (Instr.update m).wf
  | .final => s.keyed && decide (f.request = finalRequest s)
  | .reset => false
  | .tagsize => false
  | .cmp _ _ => false

/-- The ports between steps: a command in flight is a proper one and has no response yet (10_state.md R33, 20_memory.md R61);
an error response carries data 0 (30_encoding.md R74). -/
def portsOk (s : State) : Bool :=
  (match s.inflight with
    | some f => inflightOk f s && s.rsp.isNone
    | none => true) &&
  (match s.rsp with
    | some r => decide (r.status = .ok ∨ r.data = 0)
    | none => true)

/-- THE INVARIANT. The message state is proper, without an engine it is the empty one (10_state.md R30, R34, R105), and the ports
are proper. -/
abbrev State.Inv (s : State) : Prop :=
  s.msg.Ok ∧ (s.keyed = false → s.msg = MsgState.empty) ∧ portsOk s = true

/-- The message bytes a command brings: those of UPDATE, and none of any other command. -/
def messagePart : Instr → List Byte
  | .init => []
  | .update m => m
  | .final => []
  | .reset => []
  | .tagsize => []
  | .cmp _ _ => []

/-- The message a sequence of commands brings: the bytes of its UPDATEs in command order (20_memory.md R52, R56(b)). -/
def messageBytes (cs : List Instr) : List Byte := cs.flatMap messagePart

/-- Block `M_{i+1}` of a message: its bytes `i·B .. (i+1)·B`. -/
def messageBlock (M : List Byte) (i : Nat) : Block := blockOf ((M.drop (i * Config.blockSize)).take Config.blockSize)

/-- `C_0 = 0^B`, `C_{i+1} = E(C_i xor M_{i+1})` (41_update.md R129). -/
def chain (E : Block → Block) (M : List Byte) : Nat → Block
  | 0 => 0
  | i + 1 => E (chain E M i ^^^ messageBlock M i)

/-- q = ⌈n/B⌉ - 1 for n ≥ 1, and 0 for the empty message: how many blocks have been flushed. -/
def flushedBlocks (M : List Byte) : Nat := (M.length - 1) / Config.blockSize

/-- The bytes `M[q·B..n)` still pending. -/
def pendingBytes (M : List Byte) : List Byte := M.drop (flushedBlocks M * Config.blockSize)

/-- The closed form of (X, P, N) after a message (41_update.md R129). -/
def msgStateOf (E : Block → Block) (M : List Byte) : MsgState :=
  ⟨chain E M (flushedBlocks M), blockOf (pendingBytes M), BitVec.ofNat 5 (pendingBytes M).length⟩

/-- The closed form of the tag of a message (42_final.md R147). -/
def cmac (E : Block → Block) (k1 k2 : Block) (M : List Byte) : Block :=
  if M.length ≠ 0 ∧ M.length % Config.blockSize = 0 then
    E (chain E M (flushedBlocks M) ^^^ blockOf (pendingBytes M) ^^^ k1)
  else
    E (chain E M (flushedBlocks M) ^^^ blockOf (pendingBytes M ++ [0x80]) ^^^ k2)

end Sys2Proof.Machine
end

