-- ==== Sys2Proof/Certificates/Slice0/Obligations.lean ====
section
/-! DEFINITION. The statements for the provers, one definition each; the rule each formalises is named in its docstring. -/

open Sys2Proof Sys2Proof.Machine

/-! ## Encoding -/

/-- Headers and lanes written out from 30_encoding.md R70 to R73 and the table of 95_test_vectors.md section 3.7. -/
def Obligations.WrittenHeadersDecode : Prop :=
  decode ⟨0x10000000, 0, 0⟩ = .ok .init ∧
  decode ⟨0x20000003, 0x01020300000000000000000000000000, 0⟩ = .ok (.update [1, 2, 3]) ∧
  decode ⟨0x30000000, 0, 0⟩ = .ok .final ∧
  decode ⟨0x40000000, 0, 0⟩ = .ok .reset ∧
  decode ⟨0x50000000, 0, 0⟩ = .ok .tagsize ∧
  decode ⟨0x60000201, 0xab000000000000000000000000000000, 0xcdef0000000000000000000000000000⟩ =
    .ok (.cmp [0xab] [0xcd, 0xef])

/-- Decode and encode agree on every command the port can carry, with every operand byte (30_encoding.md R70 to R73). -/
def Obligations.DecodeOfEncode : Prop :=
  ∀ i : Instr, i.wf = true → decode (encode i) = .ok i

/-- The other direction: what decodes is well formed and is spelled by the header it came from (30_encoding.md R72). -/
def Obligations.EncodeOfDecodeKeepsHeader : Prop :=
  ∀ (c : Command) (i : Instr), decode c = .ok i → i.wf = true ∧ (encode i).hdr = c.hdr

/-- The legal headers of each command, exactly (30_encoding.md R73); every other header is rejected, since a decoded command is
one of these six. -/
def Obligations.LegalHeadersExactly : Prop :=
  ∀ c : Command,
    (decode c = .ok .init ↔ c.hdr = 0x10000000) ∧
    ((∃ m, decode c = .ok (.update m)) ↔ 0x20000000#32 ≤ c.hdr ∧ c.hdr ≤ 0x20000010#32) ∧
    (decode c = .ok .final ↔ c.hdr = 0x30000000) ∧
    (decode c = .ok .reset ↔ c.hdr = 0x40000000) ∧
    (decode c = .ok .tagsize ↔ c.hdr = 0x50000000) ∧
    ((∃ a b, decode c = .ok (.cmp a b)) ↔
      c.hdr.extractLsb' 16 16 = 0x6000#16 ∧ (c.hdr.extractLsb' 8 8).toNat ≤ 16 ∧ (c.hdr.extractLsb' 0 8).toNat ≤ 16)

/-- Where operand bytes come from, byte i of a lane group at bits [8(15-i)+7 : 8(15-i)] (30_encoding.md R71). -/
def Obligations.OperandBytesComeFromTheirLanes : Prop :=
  (∀ (c : Command) (m : List Byte), decode c = .ok (.update m) →
    m.length = (c.hdr.extractLsb' 0 8).toNat ∧
    ∀ i, (h : i < m.length) → m[i] = c.a.extractLsb' (8 * (15 - i)) 8) ∧
  (∀ (c : Command) (a b : List Byte), decode c = .ok (.cmp a b) →
    a.length = (c.hdr.extractLsb' 0 8).toNat ∧ b.length = (c.hdr.extractLsb' 8 8).toNat ∧
    (∀ i, (h : i < a.length) → a[i] = c.a.extractLsb' (8 * (15 - i)) 8) ∧
    (∀ i, (h : i < b.length) → b[i] = c.b.extractLsb' (8 * (15 - i)) 8))

/-- Lanes a command does not use, and lanes at or beyond the stated length, do not matter (30_encoding.md R71). -/
def Obligations.UnusedLanesAreIgnored : Prop :=
  ∀ c d : Command, c.hdr = d.hdr →
    (∀ i < (c.hdr.extractLsb' 0 8).toNat, byteOf c.a i = byteOf d.a i) →
    (∀ i < (c.hdr.extractLsb' 8 8).toNat, byteOf c.b i = byteOf d.b i) →
    decode c = decode d

/-! ## Block arithmetic -/

/-- SHL1 byte by byte and as a vector (00_scope.md R9). -/
def Obligations.ShiftLeftOneBitByBytes : Prop :=
  ∀ v : Block,
    (∀ i < 15, byteOf (shl1 v) i = (byteOf v i <<< 1) ||| (byteOf v (i + 1) >>> 7)) ∧
    byteOf (shl1 v) 15 = byteOf v 15 <<< 1 ∧
    shl1 v = v.extractLsb' 0 127 ++ 0#1

/-- DBL: the test is on the value before the shift, RB touches only the last byte (00_scope.md R10), with the rule's two worked
examples. -/
def Obligations.DoublingXorsRbOnOverflow : Prop :=
  (∀ v : Block, dbl v = if (byteOf v 0).getLsbD 7 then shl1 v ^^^ rb else shl1 v) ∧
  (∀ i < 15, byteOf rb i = 0) ∧ byteOf rb 15 = 0x87 ∧
  shl1 0xfbeed618357133667c85e08f7236a8de = 0xf7ddac306ae266ccf90bc11ee46d51bc ∧
  dbl 0x7df76b0c1ab899b33e42f047b91b546f = 0xfbeed618357133667c85e08f7236a8de ∧
  dbl 0xfbeed618357133667c85e08f7236a8de = 0xf7ddac306ae266ccf90bc11ee46d513b

/-! ## The step -/

/-- A step runs the decoded command: one presented while `cmd_ready` = 1, no hardware reset being next, is executed as `exec`
says on the state without the command on the port (20_memory.md R56, R63; 30_encoding.md R79). -/
def Obligations.StepRunsThePresentedCommand : Prop :=
  ∀ (s : State) (c : Command) (i : Instr), s.cmd = some c → s.cmdReady = true → s.inputs.head? ≠ some .rst →
    decode c = .ok i → step s = exec i { s with cmd := none }

/-- The word the host places is the command the next step runs (the model's own placing; log 2). -/
def Obligations.PlacedWordIsRun : Prop :=
  ∀ (s : State) (nbits w : Nat) (i : Instr), decodeTableWord nbits w = some i →
    step (s.withFetchWord nbits w) = exec i { s.withFetchWord nbits w with cmd := none }

/-- A host that presents a well-formed command on an idle engine and then takes the response (30_encoding.md R77): the first
step presents it, the second executes it. -/
def Obligations.ScriptLineIsExecuted : Prop :=
  ∀ (s : State) (i : Instr) (rest : List Input), i.wf = true → s.cmd = none → s.cmdReady = true →
    s.inputs = (ScriptLine.command i).inputs ++ rest →
    Host.Core.run Sys2Proof.core 2 s = exec i { s with inputs := .take :: rest }

/-- ERR_ILLEGAL: a header that 30_encoding.md R75 calls illegal changes nothing, makes no cipher request and answers
(ERR_ILLEGAL, 0), whatever KEYED and `ciph_key_ok` are (60_exceptions.md R184, R187). -/
def Obligations.IllegalHeaderAnswersErrIllegal : Prop :=
  ∀ (s : State) (c : Command), s.cmd = some c → s.cmdReady = true → s.inputs.head? ≠ some .rst →
    (let op := (c.hdr.extractLsb' 28 4).toNat
     let rsv := c.hdr.extractLsb' 16 12
     let len2 := (c.hdr.extractLsb' 8 8).toNat
     let len := (c.hdr.extractLsb' 0 8).toNat
     op = 0 ∨ 7 ≤ op ∨ rsv ≠ 0 ∨
     ((op = 1 ∨ op = 3 ∨ op = 4 ∨ op = 5) ∧ (len ≠ 0 ∨ len2 ≠ 0)) ∨
     (op = 2 ∧ (16 < len ∨ len2 ≠ 0)) ∨
     (op = 6 ∧ (16 < len ∨ 16 < len2))) →
    step s = .next { s with cmd := none, rsp := some ⟨.errIllegal, 0⟩ }

/-- Hardware reset from every state, a command in progress or a response waiting included (70_reset_and_hazards.md R210, R220):
the engine's registers and handshakes at their reset values, K1 and K2 unspecified (the model's free values, log 5), the host's
wires and the cipher as they were (log 15). -/
def Obligations.HardwareResetPreemptsEverything : Prop :=
  ∀ (s : State) (rest : List Input), s.inputs = .rst :: rest →
    step s = .next
      { s with
        k1 := Config.unspecifiedBlock s.draws
        k2 := Config.unspecifiedBlock (s.draws + 1)
        draws := s.draws + 2
        x := 0, p := 0, n := 0, keyed := false
        inflight := none, rsp := none, inputs := rest }

/-- The values the spec gives for hardware reset (10_state.md R34; 70_reset_and_hazards.md R210; `cmd_ready` = 1 by
20_memory.md R61). -/
def Obligations.ResetStateValues : Prop :=
  State.reset.keyed = false ∧ State.reset.x = 0 ∧ State.reset.p = 0 ∧ State.reset.n = 0 ∧
  State.reset.busy = false ∧ State.reset.rspValid = false ∧ State.reset.ciphReqValid = false ∧
  State.reset.cmdReady = true

/-- There are no traps: every step and every command goes on (60_exceptions.md R180). -/
def Obligations.NothingEverStops : Prop :=
  (∀ s : State, ∃ t, step s = .next t) ∧ (∀ (i : Instr) (s : State), ∃ t, exec i s = .next t)

/-! ## INIT -/

/-- A successful INIT, the cipher answering: L = E(0^B); K1 and K2 each by a shift and a conditional xor, the second test being
on K1; X, P, N zero; KEYED 1; response (OK, 0); nothing else changes (40_init_subkeys.md R102, R103, R104). -/
def Obligations.InitDerivesSubkeys : Prop :=
  ∀ s : State, s.cipher.keyOk = true → s.cipherAnswers = true →
    (let l := s.encrypt 0
     let k1 : Block := if l.getLsbD 127 then (l <<< 1) ^^^ 0x87 else l <<< 1
     let k2 : Block := if k1.getLsbD 127 then (k1 <<< 1) ^^^ 0x87 else k1 <<< 1
     exec .init s = .next
      { s with k1 := k1, k2 := k2, x := 0, p := 0, n := 0, keyed := true, rsp := some ⟨.ok, 0⟩ })

/-- ERR_KEY: only INIT returns it and only when `ciph_key_ok` = 0; then KEYED = 0, message state zero, K1 and K2 unspecified
(the model's free values, log 5), no cipher request even from a silent cipher (60_exceptions.md R182, 40_init_subkeys.md R105). -/
def Obligations.InitWithoutKeyFails : Prop :=
  (∀ s : State, s.cipher.keyOk = false →
    exec .init s = .next
      { s with
        k1 := Config.unspecifiedBlock s.draws
        k2 := Config.unspecifiedBlock (s.draws + 1)
        draws := s.draws + 2
        x := 0, p := 0, n := 0, keyed := false, rsp := some ⟨.errKey, 0⟩ }) ∧
  (∀ (i : Instr) (s t : State) (d : Block), s.rsp = none → exec i s = .next t → t.rsp = some ⟨.errKey, d⟩ →
    i = .init ∧ s.cipher.keyOk = false)

/-- K1 and K2 are functions of E(0^B) alone, DBL of it and DBL of that (40_init_subkeys.md R107): two engines in any states whose
ciphers agree on the zero block derive the same subkeys. -/
def Obligations.SubkeysDependOnTheZeroBlockAlone : Prop :=
  ∀ s s' t t' : State, s.cipher.keyOk = true → s'.cipher.keyOk = true → s.cipherAnswers = true →
    s'.cipherAnswers = true → s.encrypt 0 = s'.encrypt 0 → exec .init s = .next t → exec .init s' = .next t' →
    t.k1 = dbl (s.encrypt 0) ∧ t.k2 = dbl (dbl (s.encrypt 0)) ∧ t'.k1 = t.k1 ∧ t'.k2 = t.k2

/-! ## UPDATE -/

/-- A beat that does not overfill P: the bytes are copied behind the pending ones, N grows, nothing else changes, no cipher
request is made (even a silent cipher does not hold it), response (OK, len) (41_update.md R120, R124, R128). -/
def Obligations.UpdateWithinTheBlockKeepsBytesPending : Prop :=
  ∀ (s : State) (m : List Byte), s.keyed = true → s.n.toNat + m.length ≤ 16 →
    ∃ p' : Block,
      exec (.update m) s = .next
        { s with p := p', n := BitVec.ofNat 5 (s.n.toNat + m.length), rsp := some ⟨.ok, BitVec.ofNat 128 m.length⟩ } ∧
      ∀ i < 16, byteOf p' i = if s.n.toNat ≤ i ∧ i < s.n.toNat + m.length then m.getD (i - s.n.toNat) 0 else byteOf s.p i

/-- A beat that overfills P, the cipher answering: P is completed, xored into X and encrypted; the rest of the beat starts a
clean P; response (OK, len) (41_update.md R120, R122, R124, R128; decision D12). -/
def Obligations.UpdateBeyondTheBlockFlushesIt : Prop :=
  ∀ (s : State) (m : List Byte), s.keyed = true → s.cipherAnswers = true → s.n.toNat ≤ 16 → m.length ≤ 16 →
    16 < s.n.toNat + m.length →
    ∃ full p' : Block,
      exec (.update m) s = .next
        { s with
          x := s.encrypt (s.x ^^^ full), p := p', n := BitVec.ofNat 5 (s.n.toNat + m.length - 16)
          rsp := some ⟨.ok, BitVec.ofNat 128 m.length⟩ } ∧
      (∀ i < 16, byteOf full i = if i < s.n.toNat then byteOf s.p i else m.getD (i - s.n.toNat) 0) ∧
      (∀ i < 16, byteOf p' i = if i < s.n.toNat + m.length - 16 then m.getD (16 - s.n.toNat + i) 0 else 0)

/-- UPDATE with `len` = 0 is a no-op that responds (OK, 0) and makes no cipher request (41_update.md R126); it is so with any
cipher, a silent one included. -/
def Obligations.EmptyUpdateIsNoOp : Prop :=
  ∀ s : State, s.keyed = true → s.n.toNat ≤ 16 → exec (.update []) s = .next { s with rsp := some ⟨.ok, 0⟩ }

/-- Chunking invariance (41_update.md R127): for byte strings of any length, update(a), a FINAL, update(b) leave exactly what
update(a ++ b) leaves, and the same `finalize()` result. The engine is keyed and its cipher answers. -/
def Obligations.ChunkingInvariance : Prop :=
  ∀ (s t u v w : State) (a b : List Byte), s.keyed = true → s.cipherAnswers = true → s.n.toNat ≤ 16 →
    exec (.update a) s = .next t → exec .final t = .next u → exec (.update b) u = .next v →
    exec (.update (a ++ b)) s = .next w → v = { w with rsp := v.rsp } ∧ exec .final v = exec .final w

/-- The closed form of the message state (41_update.md R129): from an empty message, any commands but INIT and RESET leave
X = C_q, and in P and N the bytes after the q-th block, of the message M that their UPDATEs bring, however it is cut and
whatever else is issued in between; nothing else changes but the response. -/
def Obligations.MessageStateClosedForm : Prop :=
  ∀ (s : State) (cs : List Instr), s.keyed = true → s.cipherAnswers = true → s.inflight = none →
    s.msg = MsgState.empty → (∀ i ∈ cs, i ≠ .init ∧ i ≠ .reset) →
    ∃ r, execAll cs s = .next { s.withMsg (msgStateOf s.encrypt (messageBytes cs)) with rsp := r }

/-! ## FINAL -/

/-- FINAL on a complete block: T = E(P xor X xor K1), nothing else changes (42_final.md R142, R144, R145). -/
def Obligations.FinalOfACompleteBlock : Prop :=
  ∀ s : State, s.keyed = true → s.cipherAnswers = true → s.n = 16 →
    exec .final s = .next { s with rsp := some ⟨.ok, s.encrypt (s.p ^^^ s.x ^^^ s.k1)⟩ }

/-- FINAL on an incomplete or empty block: S = P xor X xor K2 with 0x80 xored into byte N, T = E(S), nothing else changes; K1 is
not read (42_final.md R143). -/
def Obligations.FinalOfAnIncompleteBlock : Prop :=
  ∀ s : State, s.keyed = true → s.cipherAnswers = true → s.n.toNat < 16 →
    ∃ scratch : Block,
      exec .final s = .next { s with rsp := some ⟨.ok, s.encrypt scratch⟩ } ∧
      ∀ i < 16, byteOf scratch i =
        byteOf s.p i ^^^ byteOf s.x i ^^^ byteOf s.k2 i ^^^ (if i = s.n.toNat then 0x80 else 0)

/-- FINAL mutates nothing (42_final.md R145): a second one answers the same tag, and an UPDATE after it is the UPDATE alone. -/
def Obligations.FinalIsIdempotent : Prop :=
  ∀ (s t : State), s.keyed = true → s.cipherAnswers = true → exec .final s = .next t →
    t = { s with rsp := t.rsp } ∧ exec .final t = .next t ∧
    ∀ m : List Byte, exec (.update m) t = exec (.update m) s

/-- The empty message takes the padding branch: S = K2 with 0x80 in byte 0 (42_final.md R146). -/
def Obligations.FinalOfTheEmptyMessage : Prop :=
  ∀ s : State, s.keyed = true → s.cipherAnswers = true → s.x = 0 → s.p = 0 → s.n = 0 →
    exec .final s = .next { s with rsp := some ⟨.ok, s.encrypt (s.k2 ^^^ 0x80000000000000000000000000000000)⟩ }

/-- The closed form of the tag (42_final.md R147): RESET, any commands but INIT and RESET, FINAL answer the CMAC of the message
M that the UPDATEs among them bring, under the engine's subkeys and cipher, however M is cut and whatever was pending before
RESET; the engine's message state is then that of M. -/
def Obligations.TagIsTheCmacOfTheMessage : Prop :=
  ∀ (s : State) (cs : List Instr), s.keyed = true → s.cipherAnswers = true → s.inflight = none →
    (∀ i ∈ cs, i ≠ .init ∧ i ≠ .reset) →
    execAll (.reset :: (cs ++ [.final])) s = .next
      { s.withMsg (msgStateOf s.encrypt (messageBytes cs)) with
        rsp := some ⟨.ok, cmac s.encrypt s.k1 s.k2 (messageBytes cs)⟩ }

/-! ## RESET and TAGSIZE -/

/-- RESET zeroes X, all of P, and N and nothing else, with no cipher request; while KEYED = 0 it is refused
(43_reset_tagsize.md R155). -/
def Obligations.ResetClearsTheMessage : Prop :=
  (∀ s : State, s.keyed = true → exec .reset s = .next { s with x := 0, p := 0, n := 0, rsp := some ⟨.ok, 0⟩ }) ∧
  (∀ s : State, s.keyed = false → exec .reset s = .next { s with rsp := some ⟨.errNotKeyed, 0⟩ })

/-- After RESET every response is a function of K1, K2, E and the commands that follow, and of nothing that came before
(43_reset_tagsize.md R156): two engines with the same subkeys and cipher answer alike after RESET and any commands. -/
def Obligations.ResetForgetsThePast : Prop :=
  ∀ (s s' t t' : State) (cs : List Instr), s.keyed = true → s'.keyed = true → s.k1 = s'.k1 → s.k2 = s'.k2 →
    s.cipher = s'.cipher → s.inflight = none → s'.inflight = none →
    execAll (.reset :: cs) s = .next t → execAll (.reset :: cs) s' = .next t' →
    t.rsp = t'.rsp ∧ t.inflight = t'.inflight

/-- TAGSIZE answers 16 in any state, keyed or not, and changes nothing (43_reset_tagsize.md R158). -/
def Obligations.TagSizeIsSixteen : Prop :=
  ∀ s : State, exec .tagsize s = .next { s with rsp := some ⟨.ok, 0x00000000000000000000000000000010⟩ }

/-! ## CMP -/

/-- CMP answers 1 iff the operands have equal length and equal contents, in any state, for operands of every length, and changes
nothing (44_compare.md R166, R170). -/
def Obligations.CompareIsEquality : Prop :=
  ∀ (a b : List Byte) (s : State),
    exec (.cmp a b) s = .next { s with rsp := some ⟨.ok, if a = b then 1 else 0⟩ }

/-! ## Pseudo-commands -/

/-- `UPDATE*` cuts its bytes into consecutive pieces of B bytes, the last of 1..B bytes; for the empty operand there is no
command (30_encoding.md R78). -/
def Obligations.UpdateStarCutsIntoBlocks : Prop :=
  ∀ m : List Byte, ∃ ps : List (List Byte), updateStar m = ps.map .update ∧ ps.flatten = m ∧
    (∀ q ∈ ps.dropLast, q.length = 16) ∧ (∀ q ∈ ps, 1 ≤ q.length ∧ q.length ≤ 16)

/-- `VERIFY` of a received tag that CMP can carry answers 1 exactly when it is the CMAC of the message, on a keyed engine whose
cipher answers (30_encoding.md R78, 42_final.md R147, 44_compare.md R166); for a longer one CMP's header is illegal and the answer is
ERR_ILLEGAL (30_encoding.md R75; that the host issues it is the model's choice, log 23). -/
def Obligations.VerifyAcceptsExactlyTheTag : Prop :=
  ∀ (s : State) (m tag : List Byte), s.keyed = true → s.cipherAnswers = true → s.inflight = none →
    ∃ t, execVerify m tag s = .next t ∧
      (tag.length ≤ 16 →
        t.rsp = some ⟨.ok, if tag = laneBytes (cmac s.encrypt s.k1 s.k2 m) 16 then 1 else 0⟩) ∧
      (16 < tag.length → tag.length ≤ 255 → t.rsp = some ⟨.errIllegal, 0⟩)

/-! ## Errors, frames and the whole machine -/

/-- ERR_NOT_KEYED: UPDATE, FINAL and RESET while KEYED = 0 change nothing and make no cipher request; INIT, TAGSIZE and CMP never
return it (60_exceptions.md R183). -/
def Obligations.UnkeyedEngineRefuses : Prop :=
  (∀ (s : State) (i : Instr), s.keyed = false → ((∃ m, i = .update m) ∨ i = .final ∨ i = .reset) →
    exec i s = .next { s with rsp := some ⟨.errNotKeyed, 0⟩ }) ∧
  (∀ (s t : State) (i : Instr) (d : Block), s.rsp = none → (i = .init ∨ i = .tagsize ∨ ∃ a b, i = .cmp a b) →
    exec i s = .next t → t.rsp ≠ some ⟨.errNotKeyed, d⟩)

/-- What never fails: with a legal header and KEYED = 1, UPDATE, FINAL and RESET respond OK, TAGSIZE and CMP in any state, INIT
with OK or ERR_KEY, the cipher answering (60_exceptions.md R185, R181); data is 0 on every error (30_encoding.md R74). -/
def Obligations.LegalCommandsRespondAsListed : Prop :=
  ∀ (i : Instr) (s : State), s.cipherAnswers = true →
    ∃ t r, exec i s = .next t ∧ t.rsp = some r ∧ t.inflight = s.inflight ∧
      (s.keyed = true → i ≠ .init → r.status = .ok) ∧
      (i = .tagsize ∨ (∃ a b, i = .cmp a b) → r.status = .ok) ∧
      (i = .init → r.status = if s.cipher.keyOk then .ok else .errKey) ∧
      (r.status ≠ .ok → r.data = 0)

/-- Which command writes what (10_state.md R36), at once or when its cipher request is made: only INIT writes K1, K2, KEYED; only
INIT, UPDATE and RESET write X, P, N; no command touches the host's wires or the cipher. -/
def Obligations.CommandsWriteOnlyTheirRegisters : Prop :=
  ∀ (i : Instr) (s t : State), exec i s = .next t →
    (i ≠ .init → t.k1 = s.k1 ∧ t.k2 = s.k2 ∧ t.keyed = s.keyed ∧ t.draws = s.draws) ∧
    (i = .final ∨ i = .tagsize ∨ (∃ a b, i = .cmp a b) → t.x = s.x ∧ t.p = s.p ∧ t.n = s.n) ∧
    t.cmd = s.cmd ∧ t.cipher = s.cipher ∧ t.inputs = s.inputs

/-- Cipher requests per command (20_memory.md R57): with a cipher that does not answer, INIT (keyed cipher), an UPDATE that
overfills P and FINAL each wait on exactly one request, no register written and no response given, and the other commands
complete. The block sent is 0^B for INIT (40_init_subkeys.md R101), X xor the completed block for UPDATE (41_update.md R122), the
scratch block for FINAL (42_final.md R142, R143). -/
def Obligations.SilentCipherHoldsExactlyTheRequestingCommands : Prop :=
  ∀ (i : Instr) (s : State), s.cipherAnswers = false → s.inflight = none → s.rsp = none →
    ∃ t, exec i s = .next t ∧
      (t.inflight = none ↔
        ((i = .init ∧ s.cipher.keyOk = false) ∨
         (∃ m, i = .update m ∧ (s.keyed = false ∨ s.n.toNat + m.length ≤ 16)) ∨
         (i = .final ∧ s.keyed = false) ∨ i = .reset ∨ i = .tagsize ∨ ∃ a b, i = .cmp a b)) ∧
      (∀ f, t.inflight = some f → f.cmd = i ∧ t = { s with inflight := some f } ∧ f.sent = s.cipher.reqReady ∧
        (i = .init → f.request = 0) ∧
        (∀ m, i = .update m → s.n.toNat ≤ 16 → ∀ j < 16,
          byteOf f.request j = byteOf s.x j ^^^ (if j < s.n.toNat then byteOf s.p j else m.getD (j - s.n.toNat) 0)) ∧
        (i = .final → s.n = 16 → f.request = s.p ^^^ s.x ^^^ s.k1) ∧
        (i = .final → s.n.toNat < 16 → ∀ j < 16, byteOf f.request j =
          byteOf s.p j ^^^ byteOf s.x j ^^^ byteOf s.k2 j ^^^ (if j = s.n.toNat then 0x80 else 0))) ∧
      (t.inflight = none → t.rsp ≠ none)

/-- When the cipher answers late, the command ends as it would have ended at once (20_memory.md R55, R57): from the waiting
state, with the cipher replaced by one that answers and reports the same `key_ok`, the step gives what the command gives there. -/
def Obligations.LateAnswerGivesTheSameResult : Prop :=
  ∀ (i : Instr) (s t : State) (f : Inflight) (c : Cipher), s.inflight = none → s.inputs.head? ≠ some .rst →
    exec i s = .next t → t.inflight = some f →
    c.reqReady = true → c.rspValid = true → c.keyOk = s.cipher.keyOk →
    step { t with cipher := c } = exec i { s with cipher := c }

/-- A command whose cipher never answers never completes and changes no register; only hardware reset or the cipher ends that
(93_implementation_defined.md U10; 20_memory.md R61). -/
def Obligations.UnansweredCommandWaits : Prop :=
  ∀ (s t : State) (f : Inflight), s.inflight = some f → s.rsp = none →
    (s.cipher.rspValid = false ∨ (f.sent = false ∧ s.cipher.reqReady = false)) →
    s.inputs.head? ≠ some .rst → step s = .next t →
    t.rsp = none ∧ (∃ b, t.inflight = some { f with sent := b }) ∧
    t.k1 = s.k1 ∧ t.k2 = s.k2 ∧ t.msg = s.msg ∧ t.keyed = s.keyed

/-- A command presented while `cmd_ready` = 0 is not accepted, waits and has no effect until it is (20_memory.md R61): whatever is
on the command port, the step is the same but for the port itself, and the port keeps what is on it unless the host drives it
anew in that step (log 14). -/
def Obligations.PresentedCommandHasNoEffectWhileBusy : Prop :=
  ∀ (s t t' : State) (c : Option Command), s.cmdReady = false → step s = .next t → step { s with cmd := c } = .next t' →
    t' = { t with cmd := t'.cmd } ∧
    ((∀ d, s.inputs.head? ≠ some (.drive d)) ∨ t.inputs = s.inputs → t'.cmd = c) ∧
    (∀ d rest, s.inputs = .drive d :: rest → t.inputs = rest → t'.cmd = d)

/-- A response stays as it is until the host takes it, and no register changes meanwhile (20_memory.md R63, R61). -/
def Obligations.ResponseIsStableUntilTaken : Prop :=
  ∀ (s t : State) (r : Response), s.rsp = some r → s.inflight = none → s.inputs.head? ≠ some .rst →
    s.inputs.head? ≠ some .take → step s = .next t →
    t.rsp = some r ∧ t.inflight = none ∧ t.k1 = s.k1 ∧ t.k2 = s.k2 ∧ t.msg = s.msg ∧ t.keyed = s.keyed

/-- Every accepted command has its one response at once, or waits for the cipher with none yet (20_memory.md R56, R61;
30_encoding.md R74); legal or not. -/
def Obligations.AcceptedCommandRespondsOrWaits : Prop :=
  ∀ (s : State) (c : Command), s.cmd = some c → s.cmdReady = true → s.inputs.head? ≠ some .rst →
    ∃ t, step s = .next t ∧ t.cmd = none ∧ t.cmdReady = false ∧ (t.rsp.isSome = !t.inflight.isSome) ∧
      (t.inflight.isSome = true → s.cipherAnswers = false)

/-- KEYED rises only by a successful INIT, one that is accepted in the step or was waiting for the cipher, which has then derived
both subkeys from the cipher's E(0^B) and zeroed the message state, and falls only by hardware reset or a failed INIT
(10_state.md R26, 70_reset_and_hazards.md R210, 40_init_subkeys.md R100). -/
def Obligations.KeyedChangesOnlyByInitOrReset : Prop :=
  ∀ s t : State, step s = .next t →
    (s.keyed = true → t.keyed = false →
      s.inputs.head? = some .rst ∨
      (s.cmdReady = true ∧ s.cipher.keyOk = false ∧ (∃ c, s.cmd = some c ∧ decode c = .ok .init) ∧
        t.rsp = some ⟨.errKey, 0⟩)) ∧
    (s.keyed = false → t.keyed = true →
      ((s.cmdReady = true ∧ s.cipher.keyOk = true ∧ ∃ c, s.cmd = some c ∧ decode c = .ok .init) ∨
        ∃ f, s.inflight = some f ∧ f.cmd = .init) ∧
      t.k1 = dbl (s.encrypt 0) ∧ t.k2 = dbl (dbl (s.encrypt 0)) ∧ t.msg = MsgState.empty ∧ t.rsp = some ⟨.ok, 0⟩)

/-- K1 and K2 are read-only for the engine's lifetime: only an INIT or hardware reset writes them (10_state.md R21, R22, R35). -/
def Obligations.SubkeysAreFixedWithinALifetime : Prop :=
  ∀ s t : State, step s = .next t → s.inputs.head? ≠ some .rst →
    (∀ c, s.cmd = some c → decode c ≠ .ok .init) → (∀ f, s.inflight = some f → f.cmd ≠ .init) →
    t.k1 = s.k1 ∧ t.k2 = s.k2 ∧ t.draws = s.draws ∧ (t.keyed = s.keyed)

/-- The invariant holds after hardware reset (10_state.md R30, R34). -/
def Obligations.InvariantHoldsAtReset : Prop := State.reset.Inv

/-- Every step keeps the invariant: 0 ≤ N ≤ B, P[N..B) zero, an empty message while there is no engine, a proper command in
flight with the request its rule forms, data 0 on an error (10_state.md R30, R33; 30_encoding.md R74). -/
def Obligations.StepKeepsTheInvariant : Prop :=
  ∀ s t : State, s.Inv → step s = .next t → t.Inv

/-- Taking the response (20_memory.md R61): it is gone, `cmd_ready` is 1 again, and no register, no wire of the host and nothing
of the cipher changes. -/
def Obligations.TakingTheResponseReadiesThePort : Prop :=
  ∀ (s : State) (r : Response) (rest : List Input), s.rsp = some r → s.inflight = none → s.inputs = .take :: rest →
    step s = .next { s with rsp := none, inputs := rest } ∧ ({ s with rsp := none, inputs := rest } : State).cmdReady = true

/-- Between commands the engine is idle with `cmd_ready` = 1 and all registers hold their values, whatever the outside world does
short of hardware reset (60_exceptions.md R195, R186; 10_state.md R37). -/
def Obligations.IdleEngineHoldsItsRegisters : Prop :=
  ∀ s : State, s.inflight = none → s.rsp = none → s.cmd = none → s.inputs.head? ≠ some .rst →
    ∃ t, step s = .next t ∧ t.cmdReady = true ∧ t.ciphReqValid = false ∧ t.k1 = s.k1 ∧ t.k2 = s.k2 ∧ t.msg = s.msg ∧
      t.keyed = s.keyed ∧ t.draws = s.draws
end

