-- ==== Sys2Proof/Laws/Bytes.lean ====
section
/-! SUPPORT. Blocks as sixteen bytes: reading after writing, and that a block is its bytes. -/

namespace Sys2Proof.Machine

@[simp] theorem blockSize_eq : Config.blockSize = 16 := rfl

@[simp] theorem cmpMax_eq : Config.cmpMax = 16 := rfl

theorem getLsbD_byteOf (v : Block) (i j : Nat) (hi : i < 16) :
    (byteOf v i).getLsbD j = (decide (j < 8) && v.getLsbD (8 * (15 - i) + j)) := by
  simp [byteOf, byteShift, hi]

theorem getLsbD_setByte (v : Block) (i j : Nat) (b : Byte) (hi : i < 16) (hj : j < 128) :
    (setByte v i b).getLsbD j =
      if 8 * (15 - i) ≤ j ∧ j < 8 * (15 - i) + 8 then b.getLsbD (j - 8 * (15 - i)) else v.getLsbD j := by
  have hff : ∀ k, (0xFF#128).getLsbD k = decide (k < 8) := by
    intro k
    by_cases hk : k < 8
    · interval_cases k <;> decide
    · by_cases hk2 : k < 128
      · have : ∀ k < 128, ¬ k < 8 → (0xFF#128).getLsbD k = false := by decide
        simpa [hk] using this k hk2 hk
      · have : (0xFF#128).getLsbD k = false := BitVec.getLsbD_of_ge _ _ (by omega)
        simpa [hk] using this
  simp only [setByte, byteShift, Config.blockSize, hi, if_true, BitVec.getLsbD_or, BitVec.getLsbD_and,
    BitVec.getLsbD_not, BitVec.getLsbD_shiftLeft, BitVec.getLsbD_setWidth, hj, decide_true, Bool.true_and]
  by_cases h1 : 8 * (15 - i) ≤ j
  · by_cases h2 : j < 8 * (15 - i) + 8
    · have e1 : ¬ j < 8 * (15 - i) := by omega
      have e2 : j - 8 * (15 - i) < 8 := by omega
      have e3 : j - 8 * (15 - i) < 128 := by omega
      simp [hff, h1, h2, e1, e2, e3]
    · have e1 : ¬ j < 8 * (15 - i) := by omega
      have e2 : ¬ j - 8 * (15 - i) < 8 := by omega
      simp [hff, h2, e1, e2, BitVec.getLsbD_of_ge b _ (by omega : 8 ≤ j - 8 * (15 - i))]
  · have e1 : j < 8 * (15 - i) := by omega
    simp [h1, e1]

theorem byteOf_setByte (v : Block) (i j : Nat) (b : Byte) (hi : i < 16) (hj : j < 16) :
    byteOf (setByte v i b) j = if j = i then b else byteOf v j := by
  apply BitVec.eq_of_getLsbD_eq
  intro k hk
  rw [getLsbD_byteOf _ _ _ hj, getLsbD_setByte _ _ _ _ hi (by omega)]
  by_cases h : j = i
  · subst h
    simp [hk]
  · rw [if_neg (by omega), if_neg h, getLsbD_byteOf _ _ _ hj]

@[simp] theorem setByte_of_le (v : Block) (i : Nat) (b : Byte) (hi : 16 ≤ i) : setByte v i b = v := by
  simp [setByte, Nat.not_lt.mpr hi]

/-- A block is its sixteen bytes. -/
theorem block_ext (v w : Block) (h : ∀ i < 16, byteOf v i = byteOf w i) : v = w := by
  apply BitVec.eq_of_getLsbD_eq
  intro k hk
  have := congrArg (fun b : Byte => b.getLsbD (k % 8)) (h (15 - k / 8) (by omega))
  simp only [getLsbD_byteOf _ _ _ (show 15 - k / 8 < 16 by omega)] at this
  have e : 8 * (15 - (15 - k / 8)) + k % 8 = k := by omega
  simpa [e, Nat.mod_lt] using this

@[simp] theorem byteOf_zero (i : Nat) : byteOf 0#128 i = 0#8 := by
  simp [byteOf]

theorem byteOf_xor (v w : Block) (i : Nat) : byteOf (v ^^^ w) i = byteOf v i ^^^ byteOf w i := by
  by_cases hi : i < 16
  · apply BitVec.eq_of_getLsbD_eq
    intro k hk
    rw [BitVec.getLsbD_xor]
    simp only [getLsbD_byteOf _ _ _ hi, hk, decide_true, Bool.true_and, BitVec.getLsbD_xor]
  · simp [byteOf, hi]

/-- What a copy of bytes leaves in every byte. -/
theorem byteOf_copyBytes (bs : List Byte) : ∀ (v : Block) (off i : Nat), i < 16 →
    byteOf (copyBytes v off bs) i = if off ≤ i then (bs[i - off]?).getD (byteOf v i) else byteOf v i := by
  induction bs with
  | nil => intro v off i hi; simp [copyBytes]
  | cons b bs ih =>
    intro v off i hi
    rw [copyBytes, ih _ _ _ hi]
    by_cases h1 : off + 1 ≤ i
    · have e : i - off = (i - (off + 1)) + 1 := by omega
      rw [if_pos h1, if_pos (by omega), e, List.getElem?_cons_succ]
      by_cases ho : off < 16
      · rw [byteOf_setByte _ _ _ _ ho hi, if_neg (by omega)]
      · rw [setByte_of_le _ _ _ (by omega)]
    · rw [if_neg h1]
      by_cases h2 : off = i
      · subst h2
        simp [byteOf_setByte _ _ _ _ hi hi]
      · by_cases ho : off < 16
        · rw [byteOf_setByte _ _ _ _ ho hi, if_neg (by omega), if_neg (by omega)]
        · rw [setByte_of_le _ _ _ (by omega), if_neg (by omega)]

theorem byteOf_blockOf (bs : List Byte) (i : Nat) (hi : i < 16) : byteOf (blockOf bs) i = (bs[i]?).getD 0 := by
  simp [blockOf, byteOf_copyBytes _ _ _ _ hi]

@[simp] theorem laneBytes_length (v : Block) (len : Nat) : (laneBytes v len).length = len := by
  simp [laneBytes]

theorem laneBytes_getElem (v : Block) (len i : Nat) (h : i < (laneBytes v len).length) :
    (laneBytes v len)[i] = byteOf v i := by
  simp [laneBytes]

/-- Bytes laid out in lanes and read back are the bytes. -/
theorem laneBytes_blockOf (bs : List Byte) (h : bs.length ≤ 16) : laneBytes (blockOf bs) bs.length = bs := by
  apply List.ext_getElem (by simp)
  intro i h1 h2
  rw [laneBytes_getElem, byteOf_blockOf _ _ (by omega)]
  simp [h2]

/-- Reading a block's lanes and laying them out again is the block. -/
theorem blockOf_laneBytes (v : Block) : blockOf (laneBytes v 16) = v := by
  apply block_ext
  intro i hi
  rw [byteOf_blockOf _ _ hi, List.getElem?_eq_getElem (by simpa using hi), laneBytes_getElem]
  rfl

end Sys2Proof.Machine
end

