-- ==== Sys2Proof/Laws/Decode.lean ====
section
/-! SUPPORT. The fields of a header, and everything the decoder can answer, said once. -/

namespace Sys2Proof

/-- A header bit by bit (30_encoding.md R70). -/
theorem getLsbD_header (op : BitVec 4) (l2 l : Byte) (i : Nat) :
    (header op l2 l).getLsbD i =
      if i < 8 then l.getLsbD i else if i < 16 then l2.getLsbD (i - 8) else if i < 28 then false
      else op.getLsbD (i - 28) := by
  show ((op ++ 0#12 ++ l2 ++ l : BitVec (4 + 12 + 8 + 8))).getLsbD i = _
  rw [BitVec.getLsbD_append, BitVec.getLsbD_append, BitVec.getLsbD_append]
  by_cases h1 : i < 8
  · simp [h1]
  · by_cases h2 : i < 16
    · simp [h1, h2, show i - 8 < 8 by omega]
    · by_cases h3 : i < 28
      · simp [h1, h2, h3, show ¬ i - 8 < 8 by omega, show i - 8 - 8 < 12 by omega]
      · simp [h1, h2, h3, show ¬ i - 8 < 8 by omega, show ¬ i - 8 - 8 < 12 by omega,
          show i - 8 - 8 - 12 = i - 28 by omega]

@[simp] theorem headerOp_header (op : BitVec 4) (l2 l : Byte) : headerOp (header op l2 l) = op := by
  apply BitVec.eq_of_getLsbD_eq
  intro i hi
  rw [headerOp, BitVec.getLsbD_extractLsb', getLsbD_header, if_neg (by omega), if_neg (by omega), if_neg (by omega)]
  simp [hi]

@[simp] theorem headerRsv_header (op : BitVec 4) (l2 l : Byte) : headerRsv (header op l2 l) = 0#12 := by
  apply BitVec.eq_of_getLsbD_eq
  intro i hi
  rw [headerRsv, BitVec.getLsbD_extractLsb', getLsbD_header, if_neg (by omega), if_neg (by omega), if_pos (by omega)]
  simp

@[simp] theorem headerLen2_header (op : BitVec 4) (l2 l : Byte) : headerLen2 (header op l2 l) = l2 := by
  apply BitVec.eq_of_getLsbD_eq
  intro i hi
  rw [headerLen2, BitVec.getLsbD_extractLsb', getLsbD_header, if_neg (by omega), if_pos (by omega)]
  simp [hi]

@[simp] theorem headerLen_header (op : BitVec 4) (l2 l : Byte) : headerLen (header op l2 l) = l := by
  apply BitVec.eq_of_getLsbD_eq
  intro i hi
  rw [headerLen, BitVec.getLsbD_extractLsb', getLsbD_header, if_pos (by omega)]
  simp [hi]

/-- A header with `rsv` zero is its other three fields. -/
theorem header_ext {h : BitVec 32} (hr : headerRsv h = 0) : header (headerOp h) (headerLen2 h) (headerLen h) = h := by
  apply BitVec.eq_of_getLsbD_eq
  intro i hi
  have rsv : 16 ≤ i → i < 28 → h.getLsbD i = false := by
    intro h1 h2
    have := congrArg (fun b : BitVec 12 => b.getLsbD (i - 16)) hr
    simpa [headerRsv, BitVec.getLsbD_extractLsb', show i - 16 < 12 by omega, show 16 + (i - 16) = i by omega] using this
  rw [getLsbD_header]
  by_cases h1 : i < 8
  · rw [if_pos h1]
    simp only [headerLen, BitVec.getLsbD_extractLsb', h1, decide_true, Bool.true_and, Nat.zero_add]
  · by_cases h2 : i < 16
    · simp only [if_neg h1, if_pos h2, headerLen2, BitVec.getLsbD_extractLsb', show i - 8 < 8 by omega, decide_true,
        Bool.true_and, show 8 + (i - 8) = i by omega]
    · by_cases h3 : i < 28
      · rw [if_neg h1, if_neg h2, if_pos h3, rsv (by omega) h3]
      · simp only [if_neg h1, if_neg h2, if_neg h3, headerOp, BitVec.getLsbD_extractLsb', show i - 28 < 4 by omega,
          decide_true, Bool.true_and, show 28 + (i - 28) = i by omega]

theorem decodePlain_ok {h : BitVec 32} {i j : Instr} (e : decodePlain h i = .ok j) :
    j = i ∧ headerLen2 h = 0 ∧ headerLen h = 0 := by
  unfold decodePlain at e
  split at e
  · exact ⟨by cases e; rfl, ‹_›⟩
  · cases e

/-- What a header that decodes spells: which command, its field values, and where its operands come from. -/
theorem decode_ok_cases {c : Command} {i : Instr} (e : decode c = .ok i) :
    headerRsv c.hdr = 0 ∧
    ((headerOp c.hdr = 1 ∧ headerLen2 c.hdr = 0 ∧ headerLen c.hdr = 0 ∧ i = .init) ∨
     (headerOp c.hdr = 2 ∧ headerLen2 c.hdr = 0 ∧ (headerLen c.hdr).toNat ≤ 16 ∧
        i = .update (Machine.laneBytes c.a (headerLen c.hdr).toNat)) ∨
     (headerOp c.hdr = 3 ∧ headerLen2 c.hdr = 0 ∧ headerLen c.hdr = 0 ∧ i = .final) ∨
     (headerOp c.hdr = 4 ∧ headerLen2 c.hdr = 0 ∧ headerLen c.hdr = 0 ∧ i = .reset) ∨
     (headerOp c.hdr = 5 ∧ headerLen2 c.hdr = 0 ∧ headerLen c.hdr = 0 ∧ i = .tagsize) ∨
     (headerOp c.hdr = 6 ∧ (headerLen c.hdr).toNat ≤ 16 ∧ (headerLen2 c.hdr).toNat ≤ 16 ∧
        i = .cmp (Machine.laneBytes c.a (headerLen c.hdr).toNat) (Machine.laneBytes c.b (headerLen2 c.hdr).toNat))) := by
  have opOf : ∀ k : Nat, k < 16 → (headerOp c.hdr).toNat = k → headerOp c.hdr = BitVec.ofNat 4 k := by
    intro k hk h
    apply BitVec.eq_of_toNat_eq
    rw [h, BitVec.toNat_ofNat, Nat.mod_eq_of_lt (by omega)]
  unfold decode at e
  split at e
  · cases e
  · rename_i hr
    refine ⟨by simpa using hr, ?_⟩
    split at e
    · obtain ⟨h1, h2, h3⟩ := decodePlain_ok e
      exact .inl ⟨opOf 1 (by omega) ‹_›, h2, h3, h1⟩
    · unfold decodeUpdate at e
      split at e
      · cases e
      · split at e
        · cases e
        · rename_i h2 h3
          cases e
          exact .inr (.inl ⟨opOf 2 (by omega) ‹_›, by simpa using h2, by simpa using h3, rfl⟩)
    · obtain ⟨h1, h2, h3⟩ := decodePlain_ok e
      exact .inr (.inr (.inl ⟨opOf 3 (by omega) ‹_›, h2, h3, h1⟩))
    · obtain ⟨h1, h2, h3⟩ := decodePlain_ok e
      exact .inr (.inr (.inr (.inl ⟨opOf 4 (by omega) ‹_›, h2, h3, h1⟩)))
    · obtain ⟨h1, h2, h3⟩ := decodePlain_ok e
      exact .inr (.inr (.inr (.inr (.inl ⟨opOf 5 (by omega) ‹_›, h2, h3, h1⟩))))
    · unfold decodeCmp at e
      split at e
      · cases e
      · rename_i h2
        cases e
        simp only [Config.cmpMax, not_or, Nat.not_lt] at h2
        exact .inr (.inr (.inr (.inr (.inr ⟨opOf 6 (by omega) ‹_›, h2.1, h2.2, rfl⟩))))
    · cases e

/-- No two rows of the opcode table claim the same header: they differ on a bit both masks fix. -/
theorem opcodeTable_disjoint :
    opcodeTable.Pairwise fun r q => r.value &&& q.mask &&& r.mask ≠ q.value &&& r.mask &&& q.mask := by
  decide

end Sys2Proof
end

