-- ==== Sys2Proof/Laws/State.lean ====
section
/-! SUPPORT. What every field holds after each update of Machine/Ops.lean, so that no proof unfolds a record update. -/

namespace Sys2Proof.Machine

variable (s : State)

@[simp] theorem State.withMsg_k1 (a : MsgState) : (s.withMsg a).k1 = s.k1 := rfl
@[simp] theorem State.withMsg_k2 (a : MsgState) : (s.withMsg a).k2 = s.k2 := rfl
@[simp] theorem State.withMsg_x (a : MsgState) : (s.withMsg a).x = a.x := rfl
@[simp] theorem State.withMsg_p (a : MsgState) : (s.withMsg a).p = a.p := rfl
@[simp] theorem State.withMsg_n (a : MsgState) : (s.withMsg a).n = a.n := rfl
@[simp] theorem State.withMsg_keyed (a : MsgState) : (s.withMsg a).keyed = s.keyed := rfl
@[simp] theorem State.withMsg_inflight (a : MsgState) : (s.withMsg a).inflight = s.inflight := rfl
@[simp] theorem State.withMsg_rsp (a : MsgState) : (s.withMsg a).rsp = s.rsp := rfl
@[simp] theorem State.withMsg_cmd (a : MsgState) : (s.withMsg a).cmd = s.cmd := rfl
@[simp] theorem State.withMsg_cipher (a : MsgState) : (s.withMsg a).cipher = s.cipher := rfl
@[simp] theorem State.withMsg_inputs (a : MsgState) : (s.withMsg a).inputs = s.inputs := rfl
@[simp] theorem State.withMsg_draws (a : MsgState) : (s.withMsg a).draws = s.draws := rfl
@[simp] theorem State.withMsg_msg (a : MsgState) : (s.withMsg a).msg = a := rfl

@[simp] theorem State.respond_k1 (st : Status) (d : Block) : (s.respond st d).k1 = s.k1 := rfl
@[simp] theorem State.respond_k2 (st : Status) (d : Block) : (s.respond st d).k2 = s.k2 := rfl
@[simp] theorem State.respond_x (st : Status) (d : Block) : (s.respond st d).x = s.x := rfl
@[simp] theorem State.respond_p (st : Status) (d : Block) : (s.respond st d).p = s.p := rfl
@[simp] theorem State.respond_n (st : Status) (d : Block) : (s.respond st d).n = s.n := rfl
@[simp] theorem State.respond_keyed (st : Status) (d : Block) : (s.respond st d).keyed = s.keyed := rfl
@[simp] theorem State.respond_inflight (st : Status) (d : Block) : (s.respond st d).inflight = s.inflight := rfl
@[simp] theorem State.respond_rsp (st : Status) (d : Block) : (s.respond st d).rsp = some ⟨st, d⟩ := rfl
@[simp] theorem State.respond_cmd (st : Status) (d : Block) : (s.respond st d).cmd = s.cmd := rfl
@[simp] theorem State.respond_cipher (st : Status) (d : Block) : (s.respond st d).cipher = s.cipher := rfl
@[simp] theorem State.respond_inputs (st : Status) (d : Block) : (s.respond st d).inputs = s.inputs := rfl
@[simp] theorem State.respond_draws (st : Status) (d : Block) : (s.respond st d).draws = s.draws := rfl
@[simp] theorem State.respond_msg (st : Status) (d : Block) : (s.respond st d).msg = s.msg := rfl

@[simp] theorem State.raise_k1 (e : Status) : (s.raise e).k1 = s.k1 := rfl
@[simp] theorem State.raise_k2 (e : Status) : (s.raise e).k2 = s.k2 := rfl
@[simp] theorem State.raise_x (e : Status) : (s.raise e).x = s.x := rfl
@[simp] theorem State.raise_p (e : Status) : (s.raise e).p = s.p := rfl
@[simp] theorem State.raise_n (e : Status) : (s.raise e).n = s.n := rfl
@[simp] theorem State.raise_keyed (e : Status) : (s.raise e).keyed = s.keyed := rfl
@[simp] theorem State.raise_inflight (e : Status) : (s.raise e).inflight = s.inflight := rfl
@[simp] theorem State.raise_rsp (e : Status) : (s.raise e).rsp = some ⟨e, 0⟩ := rfl
@[simp] theorem State.raise_cmd (e : Status) : (s.raise e).cmd = s.cmd := rfl
@[simp] theorem State.raise_cipher (e : Status) : (s.raise e).cipher = s.cipher := rfl
@[simp] theorem State.raise_inputs (e : Status) : (s.raise e).inputs = s.inputs := rfl
@[simp] theorem State.raise_draws (e : Status) : (s.raise e).draws = s.draws := rfl
@[simp] theorem State.raise_msg (e : Status) : (s.raise e).msg = s.msg := rfl

@[simp] theorem State.clearMessage_k1 : s.clearMessage.k1 = s.k1 := rfl
@[simp] theorem State.clearMessage_k2 : s.clearMessage.k2 = s.k2 := rfl
@[simp] theorem State.clearMessage_x : s.clearMessage.x = 0 := rfl
@[simp] theorem State.clearMessage_p : s.clearMessage.p = 0 := rfl
@[simp] theorem State.clearMessage_n : s.clearMessage.n = 0 := rfl
@[simp] theorem State.clearMessage_keyed : s.clearMessage.keyed = s.keyed := rfl
@[simp] theorem State.clearMessage_inflight : s.clearMessage.inflight = s.inflight := rfl
@[simp] theorem State.clearMessage_rsp : s.clearMessage.rsp = s.rsp := rfl
@[simp] theorem State.clearMessage_cmd : s.clearMessage.cmd = s.cmd := rfl
@[simp] theorem State.clearMessage_cipher : s.clearMessage.cipher = s.cipher := rfl
@[simp] theorem State.clearMessage_inputs : s.clearMessage.inputs = s.inputs := rfl
@[simp] theorem State.clearMessage_draws : s.clearMessage.draws = s.draws := rfl
@[simp] theorem State.clearMessage_msg : s.clearMessage.msg = MsgState.empty := rfl

@[simp] theorem State.forgetSubkeys_k1 : s.forgetSubkeys.k1 = Config.unspecifiedBlock s.draws := rfl
@[simp] theorem State.forgetSubkeys_k2 : s.forgetSubkeys.k2 = Config.unspecifiedBlock (s.draws + 1) := rfl
@[simp] theorem State.forgetSubkeys_x : s.forgetSubkeys.x = s.x := rfl
@[simp] theorem State.forgetSubkeys_p : s.forgetSubkeys.p = s.p := rfl
@[simp] theorem State.forgetSubkeys_n : s.forgetSubkeys.n = s.n := rfl
@[simp] theorem State.forgetSubkeys_keyed : s.forgetSubkeys.keyed = s.keyed := rfl
@[simp] theorem State.forgetSubkeys_inflight : s.forgetSubkeys.inflight = s.inflight := rfl
@[simp] theorem State.forgetSubkeys_rsp : s.forgetSubkeys.rsp = s.rsp := rfl
@[simp] theorem State.forgetSubkeys_cmd : s.forgetSubkeys.cmd = s.cmd := rfl
@[simp] theorem State.forgetSubkeys_cipher : s.forgetSubkeys.cipher = s.cipher := rfl
@[simp] theorem State.forgetSubkeys_inputs : s.forgetSubkeys.inputs = s.inputs := rfl
@[simp] theorem State.forgetSubkeys_draws : s.forgetSubkeys.draws = s.draws + 2 := rfl
@[simp] theorem State.forgetSubkeys_msg : s.forgetSubkeys.msg = s.msg := rfl

@[simp] theorem State.dropEngine_k1 : s.dropEngine.k1 = Config.unspecifiedBlock s.draws := rfl
@[simp] theorem State.dropEngine_k2 : s.dropEngine.k2 = Config.unspecifiedBlock (s.draws + 1) := rfl
@[simp] theorem State.dropEngine_x : s.dropEngine.x = 0 := rfl
@[simp] theorem State.dropEngine_p : s.dropEngine.p = 0 := rfl
@[simp] theorem State.dropEngine_n : s.dropEngine.n = 0 := rfl
@[simp] theorem State.dropEngine_keyed : s.dropEngine.keyed = false := rfl
@[simp] theorem State.dropEngine_inflight : s.dropEngine.inflight = s.inflight := rfl
@[simp] theorem State.dropEngine_rsp : s.dropEngine.rsp = s.rsp := rfl
@[simp] theorem State.dropEngine_cmd : s.dropEngine.cmd = s.cmd := rfl
@[simp] theorem State.dropEngine_cipher : s.dropEngine.cipher = s.cipher := rfl
@[simp] theorem State.dropEngine_inputs : s.dropEngine.inputs = s.inputs := rfl
@[simp] theorem State.dropEngine_draws : s.dropEngine.draws = s.draws + 2 := rfl
@[simp] theorem State.dropEngine_msg : s.dropEngine.msg = MsgState.empty := rfl

@[simp] theorem State.hardwareReset_k1 : s.hardwareReset.k1 = Config.unspecifiedBlock s.draws := rfl
@[simp] theorem State.hardwareReset_k2 : s.hardwareReset.k2 = Config.unspecifiedBlock (s.draws + 1) := rfl
@[simp] theorem State.hardwareReset_x : s.hardwareReset.x = 0 := rfl
@[simp] theorem State.hardwareReset_p : s.hardwareReset.p = 0 := rfl
@[simp] theorem State.hardwareReset_n : s.hardwareReset.n = 0 := rfl
@[simp] theorem State.hardwareReset_keyed : s.hardwareReset.keyed = false := rfl
@[simp] theorem State.hardwareReset_inflight : s.hardwareReset.inflight = none := rfl
@[simp] theorem State.hardwareReset_rsp : s.hardwareReset.rsp = none := rfl
@[simp] theorem State.hardwareReset_cmd : s.hardwareReset.cmd = s.cmd := rfl
@[simp] theorem State.hardwareReset_cipher : s.hardwareReset.cipher = s.cipher := rfl
@[simp] theorem State.hardwareReset_inputs : s.hardwareReset.inputs = s.inputs := rfl
@[simp] theorem State.hardwareReset_draws : s.hardwareReset.draws = s.draws + 2 := rfl
@[simp] theorem State.hardwareReset_msg : s.hardwareReset.msg = MsgState.empty := rfl

@[simp] theorem State.msg_x : s.msg.x = s.x := rfl
@[simp] theorem State.msg_p : s.msg.p = s.p := rfl
@[simp] theorem State.msg_n : s.msg.n = s.n := rfl
@[simp] theorem State.withMsg_self : s.withMsg s.msg = s := rfl

@[simp] theorem MsgState.empty_x : MsgState.empty.x = 0 := rfl
@[simp] theorem MsgState.empty_p : MsgState.empty.p = 0 := rfl
@[simp] theorem MsgState.empty_n : MsgState.empty.n = 0 := rfl

end Sys2Proof.Machine
end

