-- ==== Sys2Proof/Laws/Exec.lean ====
section
/-! SUPPORT. Everything the shared control operations and one step can do, said once; proofs cite these instead of unfolding
`request`, `ifKeyed`, `serveCipher` or `portStep`. -/

namespace Sys2Proof.Machine

/-- A request is answered at once, or the command is in flight with nothing else changed. -/
theorem State.request_cases (s : State) (i : Instr) (v : Block) (done : State → State) :
    (s.cipherAnswers = true ∧ s.request i v done = done s) ∨
    (s.cipherAnswers = false ∧ s.request i v done = { s with inflight := some ⟨i, v, s.cipher.reqReady⟩ }) := by
  unfold State.request
  cases h : s.cipherAnswers <;> simp

theorem State.request_of_answers {s : State} (h : s.cipherAnswers = true) (i : Instr) (v : Block) (done : State → State) :
    s.request i v done = done s := by
  simp [State.request, h]

theorem State.request_of_silent {s : State} (h : s.cipherAnswers = false) (i : Instr) (v : Block) (done : State → State) :
    s.request i v done = { s with inflight := some ⟨i, v, s.cipher.reqReady⟩ } := by
  simp [State.request, h]

theorem State.ifKeyed_of_keyed {s : State} (h : s.keyed = true) (run : State → State) : s.ifKeyed run = run s := by
  simp [State.ifKeyed, h]

theorem State.ifKeyed_of_not {s : State} (h : s.keyed = false) (run : State → State) :
    s.ifKeyed run = s.raise .errNotKeyed := by
  simp [State.ifKeyed, h]

/-- What INIT can do. -/
theorem execInit_cases (s : State) :
    (s.cipher.keyOk = false ∧ execInit s = .next (s.dropEngine.raise .errKey)) ∨
    (s.cipher.keyOk = true ∧ s.cipherAnswers = true ∧ execInit s = .next (finishInit s)) ∨
    (s.cipher.keyOk = true ∧ s.cipherAnswers = false ∧
      execInit s = .next { s with inflight := some ⟨.init, 0, s.cipher.reqReady⟩ }) := by
  by_cases hk : s.cipher.keyOk = true
  · have e0 : execInit s = .next (s.request .init 0 finishInit) := by simp only [execInit, hk, if_true]
    rcases s.request_cases .init 0 finishInit with ⟨h, e⟩ | ⟨h, e⟩
    · exact .inr (.inl ⟨hk, h, by rw [e0, e]⟩)
    · exact .inr (.inr ⟨hk, h, by rw [e0, e]⟩)
  · exact .inl ⟨by simpa using hk, by simp [execInit, hk]⟩

/-- What UPDATE can do. -/
theorem execUpdate_cases (m : List Byte) (s : State) :
    (s.keyed = false ∧ execUpdate m s = .next (s.raise .errNotKeyed)) ∨
    (s.keyed = true ∧ (flushes s.n m = false ∨ s.cipherAnswers = true) ∧ execUpdate m s = .next (finishUpdate m s)) ∨
    (s.keyed = true ∧ flushes s.n m = true ∧ s.cipherAnswers = false ∧
      execUpdate m s = .next { s with inflight := some ⟨.update m, flushBlock s.msg m, s.cipher.reqReady⟩ }) := by
  by_cases hk : s.keyed = true
  · by_cases hf : flushes s.n m = true
    · have e0 : execUpdate m s = .next (s.request (.update m) (flushBlock s.msg m) (finishUpdate m)) := by
        simp only [execUpdate, State.ifKeyed_of_keyed hk, hf, if_true]
      rcases s.request_cases (.update m) (flushBlock s.msg m) (finishUpdate m) with ⟨h, e⟩ | ⟨h, e⟩
      · exact .inr (.inl ⟨hk, .inr h, by rw [e0, e]⟩)
      · exact .inr (.inr ⟨hk, hf, h, by rw [e0, e]⟩)
    · exact .inr (.inl ⟨hk, .inl (by simpa using hf), by simp [execUpdate, State.ifKeyed_of_keyed hk, hf]⟩)
  · have hk' : s.keyed = false := by simpa using hk
    exact .inl ⟨hk', by rw [execUpdate, State.ifKeyed_of_not hk']⟩

/-- What FINAL can do. -/
theorem execFinal_cases (s : State) :
    (s.keyed = false ∧ execFinal s = .next (s.raise .errNotKeyed)) ∨
    (s.keyed = true ∧ s.cipherAnswers = true ∧ execFinal s = .next (finishFinal s)) ∨
    (s.keyed = true ∧ s.cipherAnswers = false ∧
      execFinal s = .next { s with inflight := some ⟨.final, finalRequest s, s.cipher.reqReady⟩ }) := by
  by_cases hk : s.keyed = true
  · have e0 : execFinal s = .next (s.request .final (finalRequest s) finishFinal) := by
      simp only [execFinal, State.ifKeyed_of_keyed hk]
    rcases s.request_cases .final (finalRequest s) finishFinal with ⟨h, e⟩ | ⟨h, e⟩
    · exact .inr (.inl ⟨hk, h, by rw [e0, e]⟩)
    · exact .inr (.inr ⟨hk, h, by rw [e0, e]⟩)
  · have hk' : s.keyed = false := by simpa using hk
    exact .inl ⟨hk', by rw [execFinal, State.ifKeyed_of_not hk']⟩

/-- What RESET can do. -/
theorem execReset_cases (s : State) :
    (s.keyed = false ∧ execReset s = .next (s.raise .errNotKeyed)) ∨
    (s.keyed = true ∧ execReset s = .next (s.clearMessage.respond .ok 0)) := by
  by_cases hk : s.keyed = true
  · exact .inr ⟨hk, by rw [execReset, State.ifKeyed_of_keyed hk]⟩
  · have hk' : s.keyed = false := by simpa using hk
    exact .inl ⟨hk', by rw [execReset, State.ifKeyed_of_not hk']⟩

/-- What a turn of the outside world can be, hardware reset apart. -/
theorem State.nextInput_cases (s : State) :
    (s.inputs = [] ∧ s.nextInput = s) ∨
    (∃ c rest, s.inputs = .drive c :: rest ∧ s.nextInput = { s with inputs := rest, cmd := c }) ∨
    (∃ rest, s.inputs = .take :: rest ∧ s.nextInput = { s with inputs := rest, rsp := none }) ∨
    (∃ c rest, s.inputs = .cipher c :: rest ∧ s.nextInput = { s with inputs := rest, cipher := c }) ∨
    (∃ rest, s.inputs = .rst :: rest ∧ s.nextInput = ({ s with inputs := rest }).hardwareReset) := by
  rcases h : s.inputs with _ | ⟨_ | _ | _ | _, rest⟩ <;> simp [State.nextInput, State.applyInput, h]

/-- What serving the cipher port can do for a command in flight: finish it, mark its request taken, or wait. -/
theorem serveCipher_cases (f : Inflight) (s : State) :
    (s.cipher.rspValid = true ∧ (f.sent = true ∨ s.cipher.reqReady = true) ∧
      serveCipher f s = finishCommand f.cmd { s with inflight := none }) ∨
    (s.cipher.rspValid = false ∧ f.sent = false ∧ s.cipher.reqReady = true ∧
      serveCipher f s = { s with inflight := some { f with sent := true } }) ∨
    ((s.cipher.rspValid = false ∨ (f.sent = false ∧ s.cipher.reqReady = false)) ∧ serveCipher f s = s.nextInput) := by
  unfold serveCipher
  cases h1 : s.cipher.rspValid <;> cases h2 : f.sent <;> cases h3 : s.cipher.reqReady <;> simp

/-- Everything one step can be. -/
theorem step_cases (s : State) :
    (∃ rest, s.inputs = .rst :: rest ∧ step s = .next ({ s with inputs := rest }).hardwareReset) ∨
    ((∀ rest, s.inputs ≠ .rst :: rest) ∧
      ((∃ f, s.inflight = some f ∧ step s = .next (serveCipher f s)) ∨
       (∃ c i, s.inflight = none ∧ s.rsp = none ∧ s.cmd = some c ∧ decode c = .ok i ∧
          step s = exec i { s with cmd := none }) ∨
       (∃ c e, s.inflight = none ∧ s.rsp = none ∧ s.cmd = some c ∧ decode c = .error e ∧
          step s = .next (({ s with cmd := none }).raise .errIllegal)) ∨
       (s.inflight = none ∧ (s.rsp ≠ none ∨ s.cmd = none) ∧ step s = .next s.nextInput))) := by
  have turn : (∀ rest, s.inputs ≠ .rst :: rest) → step s = engineTurn s := by
    intro hne
    unfold step portStep
    split
    · exact absurd ‹_› (hne _)
    · rfl
  by_cases hr : ∃ rest, s.inputs = .rst :: rest
  · obtain ⟨rest, hr⟩ := hr
    exact .inl ⟨rest, hr, by simp [step, portStep, hr]⟩
  · have hne : ∀ rest, s.inputs ≠ .rst :: rest := fun rest h => hr ⟨rest, h⟩
    refine .inr ⟨hne, ?_⟩
    rw [turn hne, engineTurn]
    rcases hf : s.inflight with _ | f
    · rcases hp : s.rsp with _ | r
      · rcases hc : s.cmd with _ | c
        · simp
        · rcases hd : decode c with e | i
          · refine .inr (.inr (.inl ⟨c, e, rfl, rfl, rfl, hd, ?_⟩))
            simp [acceptCommand, hd]
          · refine .inr (.inl ⟨c, i, rfl, rfl, rfl, hd, ?_⟩)
            simp [acceptCommand, hd]
      · simp
    · exact .inl ⟨f, rfl, rfl⟩

end Sys2Proof.Machine
end

