-- ==== Sys2Proof/Laws/PerInstr.lean ====
section
/-! SUPPORT. Facts about every instruction as syntax, one lemma a constructor. -/

namespace Sys2Proof.Laws.EncodedInRow

/-- The encoder's header lies in the instruction's own row of the opcode table (30_encoding.md R72). -/
def Statement (i : Instr) : Prop :=
  ∃ row ∈ opcodeTable, row.mnemonic = i.mnemonic ∧ (encode i).hdr &&& row.mask = row.value

theorem init : Statement .init := by
  refine ⟨⟨"INIT", 0x10000000, 0xFFFFFFFF⟩, by decide, rfl, by decide⟩

theorem update (m : List Byte) : Statement (.update m) := by
  refine ⟨⟨"UPDATE", 0x20000000, 0xFFFFFF00⟩, by decide, rfl, ?_⟩
  apply BitVec.eq_of_getLsbD_eq
  intro i hi
  rw [BitVec.getLsbD_and]
  show ((header 2 0 (BitVec.ofNat 8 m.length)).getLsbD i && (0xFFFFFF00#32).getLsbD i) = (0x20000000#32).getLsbD i
  rw [getLsbD_header]
  interval_cases i <;> simp

theorem final : Statement .final := by
  refine ⟨⟨"FINAL", 0x30000000, 0xFFFFFFFF⟩, by decide, rfl, by decide⟩

theorem reset : Statement .reset := by
  refine ⟨⟨"RESET", 0x40000000, 0xFFFFFFFF⟩, by decide, rfl, by decide⟩

theorem tagsize : Statement .tagsize := by
  refine ⟨⟨"TAGSIZE", 0x50000000, 0xFFFFFFFF⟩, by decide, rfl, by decide⟩

theorem cmp (a b : List Byte) : Statement (.cmp a b) := by
  refine ⟨⟨"CMP", 0x60000000, 0xFFFF0000⟩, by decide, rfl, ?_⟩
  apply BitVec.eq_of_getLsbD_eq
  intro i hi
  rw [BitVec.getLsbD_and]
  show ((header 6 (BitVec.ofNat 8 b.length) (BitVec.ofNat 8 a.length)).getLsbD i && (0xFFFF0000#32).getLsbD i) =
    (0x60000000#32).getLsbD i
  rw [getLsbD_header]
  interval_cases i <;> simp

end Sys2Proof.Laws.EncodedInRow
end

