-- ==== Sys2Proof/Laws/Script.lean ====
section
/-! SUPPORT. How a host's sequence of commands unrolls, command by command. -/

namespace Sys2Proof.Machine

@[simp] theorem execAll_nil (s : State) : execAll [] s = .next s := rfl

/-- A command that completes: the sequence goes on from its state. -/
theorem execAll_cons {i : Instr} {s t : State} (is : List Instr) (h : exec i { s with rsp := none } = .next t)
    (ht : t.inflight = none) : execAll (i :: is) s = execAll is t := by
  simp [execAll, h, ht]

/-- A command that waits for the cipher: the sequence stops there. -/
theorem execAll_cons_waiting {i : Instr} {s t : State} (is : List Instr) (h : exec i { s with rsp := none } = .next t)
    (ht : t.inflight ≠ none) : execAll (i :: is) s = .next t := by
  have : t.inflight.isSome = true := Option.isSome_iff_ne_none.mpr ht
  simp [execAll, h, this]

/-- UPDATE on a keyed engine whose cipher answers. -/
theorem exec_update_of_answers {s : State} (m : List Byte) (hk : s.keyed = true) (ha : s.cipherAnswers = true) :
    exec (.update m) s = .next (finishUpdate m s) := by
  rcases execUpdate_cases m s with ⟨h, _⟩ | ⟨_, _, e⟩ | ⟨_, _, h, _⟩
  · simp [hk] at h
  · exact e
  · simp [ha] at h

/-- FINAL on a keyed engine whose cipher answers. -/
theorem exec_final_of_answers {s : State} (hk : s.keyed = true) (ha : s.cipherAnswers = true) :
    exec .final s = .next (finishFinal s) := by
  rcases execFinal_cases s with ⟨h, _⟩ | ⟨_, _, e⟩ | ⟨_, h, _⟩
  · simp [hk] at h
  · exact e
  · simp [ha] at h

/-- What issuing a command can do: one that a header spells is executed, any other is answered as illegal. -/
theorem issueSpelled_cases (i : Instr) (s : State) :
    (i.wf = true ∧ issueSpelled i s = exec i s) ∨ (i.wf = false ∧ issueSpelled i s = .next (s.raise .errIllegal)) := by
  unfold issueSpelled
  cases i.wf <;> simp

end Sys2Proof.Machine
end

