-- ==== Sys2Proof/Laws/Update.lean ====
section
/-! SUPPORT. What `update(m)` (41_update.md R121) can do to the message state, said once. -/

namespace Sys2Proof.Machine

theorem flushes_iff (n : BitVec 5) (m : List Byte) : flushes n m = true ↔ 16 < n.toNat + m.length := by
  simp [flushes]

/-- The loop leaves at most one block, and at least one byte of a string that had one (41_update.md R123). -/
theorem flushWhole_rest (E : Block → Block) : ∀ (fuel : Nat) (x : Block) (m : List Byte), m.length ≤ fuel →
    (flushWhole E fuel x m).2.length ≤ 16 ∧ (m ≠ [] → (flushWhole E fuel x m).2 ≠ []) := by
  intro fuel
  induction fuel with
  | zero =>
    intro x m h
    have : m = [] := List.length_eq_zero_iff.mp (by omega)
    simp [flushWhole, this]
  | succ f ih =>
    intro x m h
    rw [flushWhole]
    by_cases hm : Config.blockSize < m.length
    · rw [if_pos hm]
      have h1 := ih (E (x ^^^ blockOf (m.take Config.blockSize))) (m.drop Config.blockSize)
        (by simp [Config.blockSize] at *; omega)
      refine ⟨h1.1, fun _ => h1.2 ?_⟩
      intro h0
      have := congrArg List.length h0
      simp [Config.blockSize] at *
      omega
    · rw [if_neg hm]
      exact ⟨by simpa [Config.blockSize] using hm, id⟩

/-- Any number of iterations that suffices gives the same result. -/
theorem flushWhole_short (E : Block → Block) (fuel : Nat) (x : Block) (m : List Byte) (h : m.length ≤ 16) :
    flushWhole E fuel x m = (x, m) := by
  cases fuel with
  | zero => rfl
  | succ f => rw [flushWhole, if_neg (by simpa [Config.blockSize] using h)]

/-- Keeping a tail that fits keeps the message state proper: N ≤ B and the bytes past N zero. -/
theorem keepTail_ok {a : MsgState} {r : List Byte} (ha : a.Ok) (h : a.n.toNat + r.length ≤ 16) : (keepTail a r).Ok := by
  have hn : (keepTail a r).n.toNat = a.n.toNat + r.length := by
    simp only [keepTail, BitVec.toNat_ofNat]
    exact Nat.mod_eq_of_lt (by omega)
  refine ⟨by rw [hn]; exact h, ?_⟩
  intro i hi hle
  rw [hn] at hle
  have hi' : i < 16 := hi
  rw [keepTail, byteOf_copyBytes _ _ _ _ hi', if_pos (by omega), List.getElem?_eq_none (by omega)]
  exact ha.2 i hi (by omega)

theorem empty_ok : MsgState.empty.Ok := by
  refine ⟨by simp, ?_⟩
  intro i _ _
  simp

/-- The state left by `update(m)` from a proper one is proper, whatever the cipher answers. -/
theorem absorb_ok (E : Block → Block) {a : MsgState} (m : List Byte) (ha : a.Ok) : (absorb E a m).Ok := by
  rw [absorb]
  by_cases hf : flushes a.n m
  · simp only [hf, if_true]
    apply keepTail_ok
    · refine ⟨by simp, ?_⟩
      intro i _ _
      simp
    · simpa using (flushWhole_rest E _ (E (flushBlock a m)) (m.drop (room a.n)) (Nat.le_refl _)).1
  · simp only [hf, if_false, Bool.false_eq_true]
    apply keepTail_ok ha
    simp only [flushes, Config.blockSize] at hf
    simpa using hf

/-! ## `update(m)` byte by byte

The streaming form: one byte either joins P or, when P is full, flushes it first. `update(m)` is this, byte after byte. -/

/-- One message byte. -/
def absorbByte (E : Block → Block) (a : MsgState) (b : Byte) : MsgState :=
  if a.n.toNat < 16 then ⟨a.x, setByte a.p a.n.toNat b, BitVec.ofNat 5 (a.n.toNat + 1)⟩
  else ⟨E (a.x ^^^ a.p), setByte 0 0 b, 1⟩

theorem absorbByte_n (E : Block → Block) (a : MsgState) (b : Byte) :
    (absorbByte E a b).n.toNat = if a.n.toNat < 16 then a.n.toNat + 1 else 1 := by
  unfold absorbByte
  split
  · simp only [BitVec.toNat_ofNat]
    exact Nat.mod_eq_of_lt (by omega)
  · rfl

/-- Bytes that fit are kept. -/
theorem foldl_absorbByte_fits (E : Block → Block) (r : List Byte) : ∀ a : MsgState, a.n.toNat + r.length ≤ 16 →
    r.foldl (absorbByte E) a = keepTail a r := by
  induction r with
  | nil => intro a _; simp [keepTail, copyBytes]
  | cons b r ih =>
    intro a h
    simp only [List.length_cons] at h
    have hn := absorbByte_n E a b
    rw [if_pos (by omega)] at hn
    have hb : absorbByte E a b = ⟨a.x, setByte a.p a.n.toNat b, BitVec.ofNat 5 (a.n.toNat + 1)⟩ := by
      rw [absorbByte, if_pos (by omega)]
    rw [List.foldl_cons, ih _ (by omega)]
    simp only [keepTail, hn, copyBytes, List.length_cons]
    rw [hb, show a.n.toNat + 1 + r.length = a.n.toNat + (r.length + 1) by omega]

/-- A full block is flushed by the next byte. -/
theorem foldl_absorbByte_flush (E : Block → Block) (a : MsgState) (m r : List Byte) (h : a.n.toNat + m.length = 16)
    (hr : r ≠ []) :
    (m ++ r).foldl (absorbByte E) a = r.foldl (absorbByte E) ⟨E (a.x ^^^ copyBytes a.p a.n.toNat m), 0, 0⟩ := by
  obtain ⟨b, r, rfl⟩ := List.exists_cons_of_ne_nil hr
  rw [List.foldl_append, foldl_absorbByte_fits E m a (by omega), List.foldl_cons, List.foldl_cons]
  congr 1
  have hn : (keepTail a m).n.toNat = 16 := by
    simp [keepTail, h]
  rw [absorbByte, if_neg (by omega), absorbByte, if_pos (by simp)]
  rfl

theorem foldl_absorbByte_flushWhole (E : Block → Block) : ∀ (fuel : Nat) (x : Block) (m : List Byte), m.length ≤ fuel →
    m.foldl (absorbByte E) ⟨x, 0, 0⟩ =
      keepTail ⟨(flushWhole E fuel x m).1, 0, 0⟩ (flushWhole E fuel x m).2 := by
  intro fuel
  induction fuel with
  | zero =>
    intro x m h
    exact foldl_absorbByte_fits E m _ (by simp; omega)
  | succ f ih =>
    intro x m h
    rw [flushWhole]
    by_cases hm : Config.blockSize < m.length
    · have hm' : 16 < m.length := hm
      have hr : m.drop 16 ≠ [] := by
        intro h0
        have := congrArg List.length h0
        simp at this
        omega
      have e := foldl_absorbByte_flush E ⟨x, 0, 0⟩ (m.take 16) (m.drop 16) (by simp; omega) hr
      rw [List.take_append_drop] at e
      rw [if_pos hm, e]
      exact ih _ _ (by simp; omega)
    · rw [if_neg hm]
      exact foldl_absorbByte_fits E m _ (by simp [Config.blockSize] at hm ⊢; omega)

/-- `update(m)` is its bytes, one after another (41_update.md R121). -/
theorem absorb_eq_foldl (E : Block → Block) (a : MsgState) (m : List Byte) (ha : a.n.toNat ≤ 16) :
    absorb E a m = m.foldl (absorbByte E) a := by
  rw [absorb]
  by_cases hf : flushes a.n m = true
  · have hf' := (flushes_iff _ _).mp hf
    simp only [hf, if_true]
    have hr : m.drop (room a.n) ≠ [] := by
      intro h0
      have := congrArg List.length h0
      simp [room, Config.blockSize] at this
      omega
    have e := foldl_absorbByte_flush E a (m.take (room a.n)) (m.drop (room a.n))
      (by simp [room, Config.blockSize]; omega) hr
    rw [List.take_append_drop] at e
    rw [e, foldl_absorbByte_flushWhole E _ _ _ (Nat.le_refl _)]
    rfl
  · have hf' : ¬ 16 < a.n.toNat + m.length := fun h => hf ((flushes_iff _ _).mpr h)
    simp only [Bool.not_eq_true] at hf
    simp only [hf, Bool.false_eq_true, if_false]
    exact (foldl_absorbByte_fits E m a (by omega)).symm

end Sys2Proof.Machine
end

