-- ==== Sys2Proof/Tests/Slice0.lean ====
section
/-! SUPPORT. Tests of the model's own work: ill-formed terms, words written out from 30_encoding.md, single steps with the
results of 95_test_vectors.md, and for every statement with hypotheses a concrete case that meets all of them. -/

namespace Sys2Proof.Tests

open Sys2Proof.Machine

/-! ## Well-formedness -/

theorem test_wf_update_16 : (Instr.update (List.replicate 16 0)).wf = true := by decide
theorem test_wf_update_17_refused : (Instr.update (List.replicate 17 0)).wf = false := by decide
theorem test_wf_cmp_16_16 : (Instr.cmp (List.replicate 16 0) (List.replicate 16 0)).wf = true := by decide
theorem test_wf_cmp_first_17_refused : (Instr.cmp (List.replicate 17 0) []).wf = false := by decide
theorem test_wf_cmp_second_17_refused : (Instr.cmp [] (List.replicate 17 0)).wf = false := by decide

/-! ## Decoding: fields written out from 30_encoding.md R70 (op, rsv, len2, len), verdicts of 95 section 3.7 -/

theorem test_decode_init : decode ⟨0b0001#4 ++ 0#12 ++ 0#8 ++ 0#8, 0, 0⟩ = .ok .init := by decide
theorem test_decode_update :
    decode ⟨0b0010#4 ++ 0#12 ++ 0#8 ++ 3#8, 0x01#8 ++ 0x02#8 ++ 0x03#8 ++ 0xffffffffffffffffffffffffff#104, 0⟩ =
      .ok (.update [1, 2, 3]) := by decide
theorem test_decode_update_full :
    decode ⟨0x20000010, 0x0102030405060708090a0b0c0d0e0f10, 0⟩ =
      .ok (.update [1, 2, 3, 4, 5, 6, 7, 8, 9, 10, 11, 12, 13, 14, 15, 16]) := by decide
theorem test_decode_final : decode ⟨0b0011#4 ++ 0#12 ++ 0#8 ++ 0#8, 0, 0⟩ = .ok .final := by decide
theorem test_decode_reset : decode ⟨0b0100#4 ++ 0#12 ++ 0#8 ++ 0#8, 0, 0⟩ = .ok .reset := by decide
theorem test_decode_tagsize : decode ⟨0b0101#4 ++ 0#12 ++ 0#8 ++ 0#8, 0, 0⟩ = .ok .tagsize := by decide
/-- `len` is the first operand's length and `len2` the second's. -/
theorem test_decode_cmp :
    decode ⟨0b0110#4 ++ 0#12 ++ 2#8 ++ 1#8, 0xab#8 ++ 0#120, 0xcd#8 ++ 0xef#8 ++ 0#112⟩ = .ok (.cmp [0xab] [0xcd, 0xef]) := by
  decide

theorem test_illegal_reserved_opcodes :
    decode ⟨0x00000000, 0, 0⟩ = .error .reservedOpcode ∧ decode ⟨0x70000000, 0, 0⟩ = .error .reservedOpcode ∧
    decode ⟨0x80000000, 0, 0⟩ = .error .reservedOpcode ∧ decode ⟨0xf0000000, 0, 0⟩ = .error .reservedOpcode := by decide
theorem test_illegal_update :
    decode ⟨0x20000011, 0, 0⟩ = .error .updateTooLong ∧ decode ⟨0x20000100, 0, 0⟩ = .error .updateSecondLength := by decide
theorem test_illegal_lengths :
    decode ⟨0x30000001, 0, 0⟩ = .error .lengthWithoutOperand ∧ decode ⟨0x40000001, 0, 0⟩ = .error .lengthWithoutOperand ∧
    decode ⟨0x50000001, 0, 0⟩ = .error .lengthWithoutOperand ∧ decode ⟨0x10000001, 0, 0⟩ = .error .lengthWithoutOperand := by
  decide
theorem test_illegal_reserved_bits :
    decode ⟨0x10010000, 0, 0⟩ = .error .reservedBits ∧ decode ⟨0x2fff0001, 0, 0⟩ = .error .reservedBits := by decide
theorem test_illegal_cmp :
    decode ⟨0x60001110, 0, 0⟩ = .error .cmpTooLong ∧ decode ⟨0x60000011, 0, 0⟩ = .error .cmpTooLong := by decide

theorem test_table_words :
    decodeTableWord 32 0x10000000 = some .init ∧ decodeTableWord 32 0x20000001 = some (.update [0]) ∧
    decodeTableWord 32 0x60000100 = some (.cmp [] [0]) ∧ decodeTableWord 32 0x70000000 = none := by decide

/-- A word with operand lanes: header, then `cmd_a` from bit 32 (log 19). -/
theorem test_table_word_with_lanes : decodeTableWord 160 (0x20000001 + 0xaa * 2 ^ 152) = some (.update [0xaa]) := by decide

/-! ## Block arithmetic: 95 section 3.1 -/

theorem test_dbl_carry : dbl 0x00800080008000800080008000800080 = 0x01000100010001000100010001000100 := by decide
theorem test_dbl_overflow : dbl 0xffffffffffffffffffffffffffffff79 = 0xfffffffffffffffffffffffffffffe75 := by decide

/-! ## Single commands: 95 sections 3.2 to 3.6, cipher REV -/

/-- The block `0102…10`, which is also REV(0). -/
abbrev ramp : Block := 0x0102030405060708090a0b0c0d0e0f10

/-- REV (95 section 2) on the blocks these tests send: 0, the flushed block, and the scratch blocks of F11 to F14. -/
def revTable : List (Block × Block) :=
  [(0, ramp), (ramp, 0x11111111111111111111111111111111),
   (0x84080c1014181c2024282c3034383c40, 0x413e3b3835322f2c292623201d1a1794),
   (0x050a0f9014181c2024282c3034383c40, 0x413e3b3835322f2c292623209d1d1915),
   (0x0306050c0f0a09181b1e1d1417121130, 0x3113151b192325232113151b19131513),
   (0x04991d0105090d3135393d2125292d51, 0x522f2c292643403d3a1714110e2ba814)]

/-- A cipher that answers, one that takes requests and does not answer, one that takes none, and one without a key. -/
def answering : Cipher := ⟨true, true, true, 0, revTable⟩
def taking : Cipher := ⟨true, true, false, 0, revTable⟩
def deaf : Cipher := ⟨true, false, false, 0, revTable⟩
def keyless : Cipher := ⟨false, true, true, 0, revTable⟩

/-- An engine keyed by REV (subkeys of 95 section 3.2). -/
def engine (c : Cipher) (x p : Block) (n : BitVec 5) : State :=
  { State.reset with
    k1 := 0x020406080a0c0e10121416181a1c1e20, k2 := 0x04080c1014181c2024282c3034383c40
    x := x, p := p, n := n, keyed := true, cipher := c }

/-- An engine that has never been keyed. -/
def unkeyed (c : Cipher) : State := { State.reset with k1 := 1, k2 := 2, cipher := c }

/-- The state an outcome goes on with. -/
def after (o : Host.Outcome State Fault Refusal) : Option State :=
  match o with
  | .next t => some t
  | .fault _ => none
  | .refused _ => none

theorem test_init_rev : after (exec .init (unkeyed answering)) = some { engine answering 0 0 0 with rsp := some ⟨.ok, 0⟩ } := by
  decide
/-- P3 step 20: a failed INIT discards the message in progress. -/
theorem test_init_keyless :
    (after (exec .init (engine keyless 5 7 1))).map (fun t => (t.keyed, t.x, t.p, t.n, t.rsp)) =
      some (false, 0, 0, 0, some ⟨.errKey, 0⟩) := by decide
/-- U5. -/
theorem test_update_after_full_block :
    after (exec (.update [0x11]) (engine answering 0 ramp 16)) =
      some { engine answering 0x11111111111111111111111111111111 0x11000000000000000000000000000000 1 with
        rsp := some ⟨.ok, 1⟩ } := by decide
/-- U9. -/
theorem test_update_splits :
    after (exec (.update [4, 5, 6, 7, 8, 9, 10, 11, 12, 13, 14, 15, 16, 0x11, 0x12, 0x13])
        (engine answering 0 0x01020300000000000000000000000000 3)) =
      some { engine answering 0x11111111111111111111111111111111 0x11121300000000000000000000000000 3 with
        rsp := some ⟨.ok, 16⟩ } := by decide
/-- F12. -/
theorem test_final_padded :
    (after (exec .final (engine answering 0 0x01020300000000000000000000000000 3))).map (·.rsp) =
      some (some ⟨.ok, 0x413e3b3835322f2c292623209d1d1915⟩) := by decide
/-- F13. -/
theorem test_final_full :
    (after (exec .final (engine answering 0 ramp 16))).map (·.rsp) = some (some ⟨.ok, 0x3113151b192325232113151b19131513⟩) := by
  decide
/-- T1. -/
theorem test_reset :
    after (exec .reset (engine answering 0x11111111111111111111111111111111 0x11000000000000000000000000000000 1)) =
      some { engine answering 0 0 0 with rsp := some ⟨.ok, 0⟩ } := by decide
/-- T4. -/
theorem test_reset_unkeyed :
    after (exec .reset (unkeyed answering)) = some { unkeyed answering with rsp := some ⟨.errNotKeyed, 0⟩ } := by decide
/-- T5. -/
theorem test_tagsize :
    (after (exec .tagsize (unkeyed deaf))).map (·.rsp) = some (some ⟨.ok, 0x00000000000000000000000000000010⟩) := by decide
/-- Q15. -/
theorem test_cmp_order :
    (after (exec (.cmp [1, 0] [0, 1]) (unkeyed deaf))).map (·.rsp) = some (some ⟨.ok, 0⟩) := by decide
/-- Q9. -/
theorem test_cmp_equal :
    (after (exec (.cmp [0x07, 0x0a, 0x16, 0xb4, 0x6b, 0x4d, 0x41, 0x44] [0x07, 0x0a, 0x16, 0xb4, 0x6b, 0x4d, 0x41, 0x44])
      (unkeyed deaf))).map (·.rsp) = some (some ⟨.ok, 1⟩) := by decide

/-- 30_encoding.md R74. -/
theorem test_status_codes :
    Status.ok.code = 0 ∧ Status.errKey.code = 1 ∧ Status.errNotKeyed.code = 2 ∧ Status.errIllegal.code = 3 := by decide

/-! ## Single steps -/

/-- P3 step 2, as the host places it on the reset state. -/
theorem test_step_tagsize_after_reset :
    (after (step (State.reset.withFetchWord 32 0x50000000))).map (·.rsp) = some (some ⟨.ok, 16⟩) := by decide
/-- P3 step 8. -/
theorem test_step_illegal_after_reset :
    (after (step (State.reset.withFetchWord 32 0x00000000))).map (·.rsp) = some (some ⟨.errIllegal, 0⟩) := by decide

/-! ## Witnesses: for every statement with hypotheses, a case that meets all of them together -/

/-- A command on the port of an idle engine. -/
def presented (c : Command) (s : State) : State := { s with cmd := some c }

/-- FINAL waiting for a cipher that has taken the request, and one not taken yet. -/
def waiting (c : Cipher) (sent : Bool) : State :=
  { engine c 0 ramp 16 with inflight := some ⟨.final, 0x0306050c0f0a09181b1e1d1417121130, sent⟩ }

def full16 : List Byte := [1, 2, 3, 4, 5, 6, 7, 8, 9, 10, 11, 12, 13, 14, 15, 16]

theorem witness_DecodeOfEncode :
    (Instr.update full16).wf = true ∧ (Instr.cmp full16 full16).wf = true ∧ (Instr.cmp [] [0]).wf = true := by decide
theorem witness_EncodeOfDecodeKeepsHeader : decode ⟨0x60001000, 0, ramp⟩ = .ok (.cmp [] full16) := by decide
theorem witness_OperandBytesComeFromTheirLanes :
    decode ⟨0x20000010, ramp, 0⟩ = .ok (.update full16) ∧ 15 < full16.length ∧
    decode ⟨0x60001010, ramp, ramp⟩ = .ok (.cmp full16 full16) := by decide
theorem witness_UnusedLanesAreIgnored :
    (⟨0x60000001, ramp, 5⟩ : Command).hdr = (⟨0x60000001, 0x01000000000000000000000000000000, 6⟩ : Command).hdr ∧
    (∀ i < 1, byteOf ramp i = byteOf 0x01000000000000000000000000000000 i) ∧ (∀ i < 0, byteOf 5 i = byteOf 6 i) := by decide
theorem witness_StepRunsThePresentedCommand :
    let s := presented ⟨0x30000000, 0, 0⟩ (engine answering 0 0 0)
    s.cmd = some ⟨0x30000000, 0, 0⟩ ∧ s.cmdReady = true ∧ s.inputs.head? ≠ some .rst ∧
      decode ⟨0x30000000, 0, 0⟩ = .ok .final := by decide
theorem witness_PlacedWordIsRun :
    decodeTableWord 32 0x20000001 = some (.update [0]) ∧ decodeTableWord 32 0x10000000 = some .init := by decide
theorem witness_ScriptLineIsExecuted :
    let s := { engine answering 0 0 0 with inputs := (ScriptLine.command (.update [9])).inputs ++ [Input.rst] }
    (Instr.update [9]).wf = true ∧ s.cmd = none ∧ s.cmdReady = true ∧
      s.inputs = (ScriptLine.command (.update [9])).inputs ++ [Input.rst] := by decide

/-- Each clause of the statement, at a boundary value: op 0, op 7, a reserved bit, a length on FINAL, UPDATE of 17 bytes, UPDATE
with `len2` = 1, CMP of 17 bytes on either side. -/
theorem witness_IllegalHeaderAnswersErrIllegal :
    ∀ h ∈ [0x00000000#32, 0x70000000, 0x10010000, 0x30000001, 0x40000100, 0x20000011, 0x20000100, 0x60000011,
        0x60001100],
      let c : Command := ⟨h, 0, 0⟩
      let s := presented c (engine answering 0 0 0)
      s.cmd = some c ∧ s.cmdReady = true ∧ s.inputs.head? ≠ some .rst ∧
      (let op := (c.hdr.extractLsb' 28 4).toNat
       let rsv := c.hdr.extractLsb' 16 12
       let len2 := (c.hdr.extractLsb' 8 8).toNat
       let len := (c.hdr.extractLsb' 0 8).toNat
       op = 0 ∨ 7 ≤ op ∨ rsv ≠ 0 ∨
       ((op = 1 ∨ op = 3 ∨ op = 4 ∨ op = 5) ∧ (len ≠ 0 ∨ len2 ≠ 0)) ∨
       (op = 2 ∧ (16 < len ∨ len2 ≠ 0)) ∨
       (op = 6 ∧ (16 < len ∨ 16 < len2))) := by
  intro h hh
  refine ⟨rfl, rfl, nofun, ?_⟩
  simp only [List.mem_cons, List.not_mem_nil, or_false] at hh
  rcases hh with rfl | rfl | rfl | rfl | rfl | rfl | rfl | rfl | rfl <;> decide

theorem witness_HardwareResetPreemptsEverything :
    ({ waiting taking true with inputs := [.rst, .take] } : State).inputs = .rst :: [.take] := by decide
theorem witness_InitDerivesSubkeys :
    (unkeyed answering).cipher.keyOk = true ∧ (unkeyed answering).cipherAnswers = true ∧
    (unkeyed answering).encrypt 0 = ramp := by decide
theorem witness_InitWithoutKeyFails_entry : (engine keyless 0 ramp 16).cipher.keyOk = false := by decide
theorem witness_InitWithoutKeyFails_only :
    ∃ t, (engine keyless 0 ramp 16).rsp = none ∧ exec .init (engine keyless 0 ramp 16) = .next t ∧
      t.rsp = some ⟨.errKey, 0⟩ := ⟨_, rfl, rfl, rfl⟩
theorem witness_SubkeysDependOnTheZeroBlockAlone :
    ∃ t t', (unkeyed answering).cipher.keyOk = true ∧
      (engine { answering with table := [(0, ramp), (1, 1)] } 3 ramp 5).cipher.keyOk = true ∧
      (unkeyed answering).cipherAnswers = true ∧
      (engine { answering with table := [(0, ramp), (1, 1)] } 3 ramp 5).cipherAnswers = true ∧
      (unkeyed answering).encrypt 0 = (engine { answering with table := [(0, ramp), (1, 1)] } 3 ramp 5).encrypt 0 ∧
      exec .init (unkeyed answering) = .next t ∧
      exec .init (engine { answering with table := [(0, ramp), (1, 1)] } 3 ramp 5) = .next t' :=
  ⟨_, _, rfl, rfl, rfl, rfl, rfl, rfl, rfl⟩
/-- Filling P exactly, with a silent cipher. -/
theorem witness_UpdateWithinTheBlockKeepsBytesPending :
    let s := engine deaf 0 0x01000000000000000000000000000000 1
    s.keyed = true ∧ s.n.toNat + (full16.drop 1).length ≤ 16 := by decide
/-- One byte too many after a full block, and 16 bytes after an empty room of one. -/
theorem witness_UpdateBeyondTheBlockFlushesIt :
    ∀ nm ∈ [(16#5, [0x11#8]), (1#5, full16), (16#5, full16)],
      let s := engine answering 0 ramp nm.1
      s.keyed = true ∧ s.cipherAnswers = true ∧ s.n.toNat ≤ 16 ∧ nm.2.length ≤ 16 ∧ 16 < s.n.toNat + nm.2.length := by decide
theorem witness_EmptyUpdateIsNoOp :
    (engine deaf 0 ramp 16).keyed = true ∧ (engine deaf 0 ramp 16).n.toNat ≤ 16 := by decide
theorem witness_ChunkingInvariance :
    ∃ t u v w, (engine answering 0 ramp 16).keyed = true ∧ (engine answering 0 ramp 16).cipherAnswers = true ∧
      (engine answering 0 ramp 16).n.toNat ≤ 16 ∧ exec (.update [7]) (engine answering 0 ramp 16) = .next t ∧
      exec .final t = .next u ∧ exec (.update full16) u = .next v ∧
      exec (.update ([7] ++ full16)) (engine answering 0 ramp 16) = .next w :=
  ⟨_, _, _, _, rfl, rfl, by decide, rfl, rfl, rfl, rfl⟩
theorem witness_MessageStateClosedForm :
    let s := engine answering 0 0 0
    s.keyed = true ∧ s.cipherAnswers = true ∧ s.inflight = none ∧ s.msg = MsgState.empty ∧
      ∀ i ∈ [Instr.update full16, .final, .update [], .cmp [1] [1], .update [17]], i ≠ .init ∧ i ≠ .reset := by decide
theorem test_messageBytes : messageBytes [.update full16, .final, .update [], .update [17]] = full16 ++ [17] := by decide
theorem witness_FinalOfACompleteBlock :
    (engine answering 0 ramp 16).keyed = true ∧ (engine answering 0 ramp 16).cipherAnswers = true ∧
    (engine answering 0 ramp 16).n = 16 := by decide
theorem witness_FinalOfAnIncompleteBlock :
    ∀ n ∈ [0#5, 3, 15], (engine answering 0 0 n).keyed = true ∧ (engine answering 0 0 n).cipherAnswers = true ∧
      (engine answering 0 0 n).n.toNat < 16 := by decide
theorem witness_FinalIsIdempotent :
    ∃ t, (engine answering 0 ramp 16).keyed = true ∧ (engine answering 0 ramp 16).cipherAnswers = true ∧
      exec .final (engine answering 0 ramp 16) = .next t := ⟨_, rfl, rfl, rfl⟩
theorem witness_FinalOfTheEmptyMessage :
    let s := engine answering 0 0 0
    s.keyed = true ∧ s.cipherAnswers = true ∧ s.x = 0 ∧ s.p = 0 ∧ s.n = 0 := by decide
theorem witness_TagIsTheCmacOfTheMessage :
    let s := engine answering 5 ramp 16
    s.keyed = true ∧ s.cipherAnswers = true ∧ s.inflight = none ∧
      ∀ i ∈ [Instr.update [1], .final, .update full16], i ≠ .init ∧ i ≠ .reset := by decide
/-- The closed form gives the tag of F14. -/
theorem test_cmac_closed_form :
    cmac answering.encrypt (engine answering 0 0 0).k1 (engine answering 0 0 0).k2 (full16 ++ [0x11]) =
      0x522f2c292643403d3a1714110e2ba814 := by decide
theorem witness_ResetClearsTheMessage :
    (engine deaf 5 ramp 16).keyed = true ∧ (unkeyed deaf).keyed = false := by decide
theorem witness_ResetForgetsThePast :
    ∃ t t', (engine answering 5 ramp 16).keyed = true ∧ (engine answering 0 0 0).keyed = true ∧
      (engine answering 5 ramp 16).k1 = (engine answering 0 0 0).k1 ∧
      (engine answering 5 ramp 16).k2 = (engine answering 0 0 0).k2 ∧
      (engine answering 5 ramp 16).cipher = (engine answering 0 0 0).cipher ∧
      (engine answering 5 ramp 16).inflight = none ∧ (engine answering 0 0 0).inflight = none ∧
      execAll (.reset :: [.final]) (engine answering 5 ramp 16) = .next t ∧
      execAll (.reset :: [.final]) (engine answering 0 0 0) = .next t' :=
  ⟨_, _, rfl, rfl, rfl, rfl, rfl, rfl, rfl, rfl, rfl⟩
theorem witness_VerifyAcceptsExactlyTheTag :
    (engine answering 5 ramp 16).keyed = true ∧ (engine answering 5 ramp 16).cipherAnswers = true ∧
    (engine answering 5 ramp 16).inflight = none := by decide
/-- Both clauses of VERIFY at the ends of their ranges. -/
theorem witness_VerifyAcceptsExactlyTheTag_lengths :
    (List.replicate 16 (0 : Byte)).length ≤ 16 ∧ 16 < (List.replicate 17 (0 : Byte)).length ∧
    (List.replicate 17 (0 : Byte)).length ≤ 255 := by decide
/-- A 17-byte second operand is an illegal header (95 section 3.7), as the host spells it. -/
theorem test_long_cmp_is_illegal :
    decode (encode (.cmp full16 (List.replicate 17 0))) = .error .cmpTooLong := by decide
theorem witness_UnkeyedEngineRefuses :
    (unkeyed answering).keyed = false ∧ ((∃ m, Instr.update [1] = .update m) ∨ Instr.update [1] = .final ∨
      Instr.update [1] = .reset) := ⟨rfl, .inl ⟨_, rfl⟩⟩
theorem witness_UnkeyedEngineRefuses_never :
    ∃ t, (unkeyed answering).rsp = none ∧
      (Instr.tagsize = .init ∨ Instr.tagsize = .tagsize ∨ ∃ a b, Instr.tagsize = .cmp a b) ∧
      exec .tagsize (unkeyed answering) = .next t := ⟨_, rfl, .inr (.inl rfl), rfl⟩
theorem witness_LegalCommandsRespondAsListed :
    (engine answering 0 ramp 16).cipherAnswers = true ∧ (engine answering 0 ramp 16).keyed = true ∧
    (unkeyed answering).cipherAnswers = true ∧ (unkeyed answering).keyed = false ∧
    (unkeyed keyless).cipherAnswers = true ∧ (unkeyed keyless).cipher.keyOk = false := by decide
theorem witness_CommandsWriteOnlyTheirRegisters :
    (∃ t, exec (.update [1]) (engine answering 0 ramp 16) = .next t) ∧ (∃ t, exec .final (engine deaf 0 ramp 16) = .next t) :=
  ⟨⟨_, rfl⟩, ⟨_, rfl⟩⟩
/-- Both ways of being silent; held commands and completing ones. -/
theorem witness_SilentCipherHoldsExactlyTheRequestingCommands :
    (engine taking 0 ramp 16).cipherAnswers = false ∧ (engine taking 0 ramp 16).inflight = none ∧
    (engine taking 0 ramp 16).rsp = none ∧ (engine deaf 0 ramp 15).cipherAnswers = false ∧
    (engine deaf 0 ramp 15).inflight = none ∧ (engine deaf 0 ramp 15).rsp = none ∧
    (after (exec .final (engine taking 0 ramp 16))).map (·.inflight) =
      some (some ⟨.final, 0x0306050c0f0a09181b1e1d1417121130, true⟩) ∧
    (after (exec (.update [1, 2]) (engine deaf 0 0x0102030405060708090a0b0c0d0e0f00 15))).map (·.inflight) =
      some (some ⟨.update [1, 2], 0x0102030405060708090a0b0c0d0e0f01, false⟩) ∧
    (after (exec (.update [1]) (engine deaf 0 ramp 15))).map (·.inflight) = some none := by decide
/-- The block FINAL sends with N < 16 is that of F12 (95 section 3.4). -/
theorem witness_SilentCipherHoldsExactlyTheRequestingCommands_padded :
    (engine deaf 0 0x01020300000000000000000000000000 3).cipherAnswers = false ∧
    (engine deaf 0 0x01020300000000000000000000000000 3).inflight = none ∧
    (engine deaf 0 0x01020300000000000000000000000000 3).rsp = none ∧
    (after (exec .final (engine deaf 0 0x01020300000000000000000000000000 3))).map (·.inflight) =
      some (some ⟨.final, 0x050a0f9014181c2024282c3034383c40, false⟩) := by decide
theorem witness_LateAnswerGivesTheSameResult :
    ∃ t f, (engine deaf 0 ramp 16).inflight = none ∧ (engine deaf 0 ramp 16).inputs.head? ≠ some .rst ∧
      exec (.update [3]) (engine deaf 0 ramp 16) = .next t ∧ t.inflight = some f ∧ answering.reqReady = true ∧
      answering.rspValid = true ∧ answering.keyOk = (engine deaf 0 ramp 16).cipher.keyOk :=
  ⟨_, _, rfl, by decide, rfl, rfl, rfl, rfl, rfl⟩
/-- The request taken and not answered; the request not taken; the step that takes it. -/
theorem witness_UnansweredCommandWaits :
    ∀ cb ∈ [(taking, true), (deaf, false), (taking, false)],
      let s := waiting cb.1 cb.2
      s.inflight = some ⟨.final, 0x0306050c0f0a09181b1e1d1417121130, cb.2⟩ ∧ s.rsp = none ∧
      (s.cipher.rspValid = false ∨ (cb.2 = false ∧ s.cipher.reqReady = false)) ∧ s.inputs.head? ≠ some .rst ∧
      (after (step s)).isSome := by decide
theorem witness_PresentedCommandHasNoEffectWhileBusy :
    ∃ t t', (waiting answering true).cmdReady = false ∧ step (waiting answering true) = .next t ∧
      step { waiting answering true with cmd := some ⟨0x40000000, 0, 0⟩ } = .next t' := ⟨_, _, rfl, rfl, rfl⟩
/-- The same while a response waits to be taken. -/
theorem witness_PresentedCommandHasNoEffectWhileBusy_response :
    ∃ t t', ({ engine answering 0 0 0 with rsp := some ⟨.ok, 1⟩ } : State).cmdReady = false ∧
      step { engine answering 0 0 0 with rsp := some ⟨.ok, 1⟩ } = .next t ∧
      step { engine answering 0 0 0 with rsp := some ⟨.ok, 1⟩, cmd := some ⟨0x40000000, 0, 0⟩ } = .next t' :=
  ⟨_, _, rfl, rfl, rfl⟩
/-- The host drives the port anew while the engine waits, and has driven nothing: both clauses about the port. -/
theorem witness_PresentedCommandHasNoEffectWhileBusy_port :
    (∃ t t', (waiting deaf false).cmdReady = false ∧ (∀ d, (waiting deaf false).inputs.head? ≠ some (.drive d)) ∧
      step (waiting deaf false) = .next t ∧ t.inputs = (waiting deaf false).inputs ∧
      step { waiting deaf false with cmd := some ⟨0x40000000, 0, 0⟩ } = .next t') ∧
    (∃ t t', ({ waiting deaf false with inputs := [.drive none, .take] } : State).cmdReady = false ∧
      step { waiting deaf false with inputs := [.drive none, .take] } = .next t ∧ t.inputs = [.take] ∧
      step { waiting deaf false with inputs := [.drive none, .take], cmd := some ⟨0x40000000, 0, 0⟩ } = .next t') :=
  ⟨⟨_, _, rfl, nofun, rfl, rfl, rfl⟩, ⟨_, _, rfl, rfl, rfl, rfl⟩⟩
theorem witness_ResponseIsStableUntilTaken :
    ∃ t, ({ engine answering 0 0 0 with rsp := some ⟨.ok, 1⟩, inputs := [.drive none, .take] } : State).rsp = some ⟨.ok, 1⟩ ∧
      ({ engine answering 0 0 0 with rsp := some ⟨.ok, 1⟩, inputs := [.drive none, .take] } : State).inflight = none ∧
      [Input.drive none, .take].head? ≠ some .rst ∧ [Input.drive none, .take].head? ≠ some .take ∧
      step { engine answering 0 0 0 with rsp := some ⟨.ok, 1⟩, inputs := [.drive none, .take] } = .next t :=
  ⟨_, rfl, rfl, by decide, by decide, rfl⟩
/-- With an answering and with a silent cipher; a legal and an illegal header. -/
theorem witness_AcceptedCommandRespondsOrWaits :
    ∀ hc ∈ [(0x30000000#32, answering), (0x30000000, deaf), (0, deaf)],
      let c : Command := ⟨hc.1, 0, 0⟩
      let s := presented c (engine hc.2 0 ramp 16)
      s.cmd = some c ∧ s.cmdReady = true ∧ s.inputs.head? ≠ some .rst := by decide
/-- KEYED falls by a failed INIT. -/
theorem witness_KeyedChangesOnlyByInitOrReset_falls :
    ∃ t, step (presented ⟨0x10000000, 0, 0⟩ (engine keyless 0 ramp 16)) = .next t ∧
      (presented ⟨0x10000000, 0, 0⟩ (engine keyless 0 ramp 16)).keyed = true ∧ t.keyed = false := ⟨_, rfl, rfl, rfl⟩
/-- KEYED falls by hardware reset. -/
theorem witness_KeyedChangesOnlyByInitOrReset_rst :
    ∃ t, step { engine answering 0 ramp 16 with inputs := [.rst] } = .next t ∧
      ({ engine answering 0 ramp 16 with inputs := [.rst] } : State).keyed = true ∧ t.keyed = false := ⟨_, rfl, rfl, rfl⟩
/-- KEYED rises by INIT. -/
theorem witness_KeyedChangesOnlyByInitOrReset_rises :
    ∃ t, step (presented ⟨0x10000000, 0, 0⟩ (unkeyed answering)) = .next t ∧
      (presented ⟨0x10000000, 0, 0⟩ (unkeyed answering)).keyed = false ∧ t.keyed = true := ⟨_, rfl, rfl, rfl⟩
/-- KEYED rises when an INIT that waited is answered. -/
theorem witness_KeyedChangesOnlyByInitOrReset_rises_late :
    ∃ t, step { unkeyed answering with inflight := some ⟨.init, 0, true⟩ } = .next t ∧
      ({ unkeyed answering with inflight := some ⟨.init, 0, true⟩ } : State).keyed = false ∧ t.keyed = true :=
  ⟨_, rfl, rfl, rfl⟩
theorem witness_SubkeysAreFixedWithinALifetime :
    ∃ t, step (presented ⟨0x20000001, 0, 0⟩ (engine answering 0 ramp 16)) = .next t ∧
      (presented ⟨0x20000001, 0, 0⟩ (engine answering 0 ramp 16)).inputs.head? ≠ some .rst ∧
      (∀ c, (presented ⟨0x20000001, 0, 0⟩ (engine answering 0 ramp 16)).cmd = some c → decode c ≠ .ok .init) ∧
      (∀ f, (presented ⟨0x20000001, 0, 0⟩ (engine answering 0 ramp 16)).inflight = some f → f.cmd ≠ .init) := by
  refine ⟨_, rfl, by decide, ?_, ?_⟩
  · rintro c ⟨⟩
    decide
  · rintro f ⟨⟩
/-- A keyed engine with a full block, one whose FINAL waits, and the engine after reset. -/
theorem witness_StepKeepsTheInvariant :
    ∀ s ∈ [engine answering 0 ramp 16, waiting taking true, unkeyed deaf], s.Inv ∧ (after (step s)).isSome := by decide
theorem witness_TakingTheResponseReadiesThePort :
    let s := { engine answering 0 ramp 16 with rsp := some ⟨.ok, 1⟩, inputs := [.take, .rst] }
    s.rsp = some ⟨.ok, 1⟩ ∧ s.inflight = none ∧ s.inputs = .take :: [.rst] := by decide
/-- Nothing scheduled, and a host that presents a command. -/
theorem witness_IdleEngineHoldsItsRegisters :
    ∀ l ∈ [[], [Input.drive (some ⟨0x30000000, 0, 0⟩)]],
      let s := { engine answering 5 ramp 16 with inputs := l }
      s.inflight = none ∧ s.rsp = none ∧ s.cmd = none ∧ s.inputs.head? ≠ some .rst := by decide

end Sys2Proof.Tests
end

section
/-! The block arithmetic of 00_scope.md: SHL1 (R9) and DBL (R10) on bits and on bytes. -/

namespace Sys2Proof.Machine

/-! ## SHL1 -/

theorem getLsbD_shl1 (v : Block) (k : Nat) (hk : k < 128) :
    (shl1 v).getLsbD k = (!decide (k < 1) && v.getLsbD (k - 1)) := by
  rw [shl1, BitVec.getLsbD_shiftLeft, decide_eq_true hk, Bool.true_and]

/-- Bit 0 of each byte but the last is the carry out of the next byte; every other bit comes from the same byte. -/
theorem byteOf_shl1 (v : Block) (i : Nat) (hi : i < 15) :
    byteOf (shl1 v) i = (byteOf v i <<< 1) ||| (byteOf v (i + 1) >>> 7) := by
  apply BitVec.eq_of_getLsbD_eq
  intro k hk
  rw [getLsbD_byteOf _ _ _ (by omega), getLsbD_shl1 _ _ (by omega), BitVec.getLsbD_or, BitVec.getLsbD_shiftLeft,
    BitVec.getLsbD_ushiftRight, getLsbD_byteOf _ _ _ (by omega), getLsbD_byteOf _ _ _ (by omega)]
  cases k with
  | zero =>
    have carry : 8 * (15 - i) - 1 = 8 * (14 - i) + 7 := by omega
    simp [carry, show 15 - i ≠ 0 by omega]
  | succ j =>
    have inside : 8 * (15 - i) + (j + 1) - 1 = 8 * (15 - i) + j := by omega
    have noCarry : ¬ 7 + (j + 1) < 8 := by omega
    simp [inside, noCarry, hk, show j < 8 by omega]

/-- Nothing enters the last byte from below. -/
theorem byteOf_shl1_last (v : Block) : byteOf (shl1 v) 15 = byteOf v 15 <<< 1 := by
  apply BitVec.eq_of_getLsbD_eq
  intro k hk
  rw [getLsbD_byteOf _ _ _ (by omega), getLsbD_shl1 _ _ (by omega), BitVec.getLsbD_shiftLeft,
    getLsbD_byteOf _ _ _ (by omega)]
  simp [hk, show k - 1 < 8 by omega]

theorem shl1_eq_append (v : Block) : shl1 v = v.extractLsb' 0 127 ++ 0#1 := by
  apply BitVec.eq_of_getLsbD_eq
  intro k hk
  rw [getLsbD_shl1 _ _ hk, BitVec.getLsbD_append]
  by_cases h : k < 1
  · simp [h]
  · simp [h, show k - 1 < 127 by omega]

/-- Settles O7: the three readings of SHL1, byte by byte from its bits and as a vector. -/
theorem shiftLeftOneBitByBytes : Obligations.ShiftLeftOneBitByBytes :=
  fun v => ⟨byteOf_shl1 v, byteOf_shl1_last v, shl1_eq_append v⟩

/-! ## DBL -/

/-- The bit DBL tests is bit 7 of byte 0 (R7). -/
theorem blockMsb_eq_getLsbD_byteOf (v : Block) : blockMsb v = (byteOf v 0).getLsbD 7 := by
  rw [blockMsb, BitVec.msb_eq_getLsbD_last, getLsbD_byteOf _ _ _ (by omega)]
  simp

theorem dbl_eq_ite_byteOf (v : Block) : dbl v = if (byteOf v 0).getLsbD 7 then shl1 v ^^^ rb else shl1 v := by
  rw [dbl, blockMsb_eq_getLsbD_byteOf]

theorem byteOf_rb_of_lt : ∀ i < 15, byteOf rb i = 0 := by decide

theorem byteOf_rb_last : byteOf rb 15 = 0x87 := by decide

/-- Settles O8: the general rule by the place of the tested bit; RB's bytes and the rule's worked examples are closed facts. -/
theorem doublingXorsRbOnOverflow : Obligations.DoublingXorsRbOnOverflow :=
  ⟨dbl_eq_ite_byteOf, byteOf_rb_of_lt, byteOf_rb_last, by decide, by decide, by decide⟩

end Sys2Proof.Machine
end

section
/-! SUPPORT. 10_state.md: what a command and a step can do to the registers, and the three statements about it. -/

namespace Sys2Proof.Machine

/-! ## The word the host places -/

theorem decodeTableWord_eq_some_iff {nbits w : Nat} {i : Instr} :
    decodeTableWord nbits w = some i ↔ decode (commandOfWord nbits w) = .ok i := by
  unfold decodeTableWord
  split <;> simp [*]

/-- A ready engine executes the legal command it is presented with (R56, R79). -/
theorem step_of_presented {s : State} {c : Command} {i : Instr} (hin : s.inflight = none) (hrsp : s.rsp = none)
    (hcmd : s.cmd = some c) (hrst : s.inputs.head? ≠ some .rst) (hdec : decode c = .ok i) :
    step s = exec i { s with cmd := none } := by
  rcases step_cases s with ⟨rest, h, _⟩ | ⟨_, ⟨f, h, _⟩ | ⟨c', j, _, _, hc, hd, e⟩ | ⟨c', x, _, _, hc, hd, _⟩ | ⟨_, h, _⟩⟩
  · simp [h] at hrst
  · simp [hin] at h
  · obtain rfl : c = c' := by simpa [hcmd] using hc
    obtain rfl : i = j := by simpa [hdec] using hd
    exact e
  · obtain rfl : c = c' := by simpa [hcmd] using hc
    simp [hdec] at hd
  · simp [hrsp, hcmd] at h

theorem State.presenting_inputs_head?_ne_rst (s : State) (c : Command) : (s.presenting c).inputs.head? ≠ some .rst := by
  intro h
  have := List.head?_dropWhile_not (fun e => decide (e = Input.rst)) s.inputs
  rw [show (s.inputs.dropWhile fun e => decide (e = Input.rst)).head? = some .rst from h] at this
  simp at this

/-- Settles O10: the placed word stands on an idle port with no hardware reset next. -/
theorem placedWordIsRun : Obligations.PlacedWordIsRun := by
  intro s nbits w i h
  exact step_of_presented rfl rfl rfl (s.presenting_inputs_head?_ne_rst _) (decodeTableWord_eq_some_iff.mp h)

/-! ## What a command writes (R36) -/

@[simp] theorem finishInit_k1 (s : State) : (finishInit s).k1 = dbl (s.encrypt 0) := rfl
@[simp] theorem finishInit_k2 (s : State) : (finishInit s).k2 = dbl (dbl (s.encrypt 0)) := rfl
@[simp] theorem finishInit_msg (s : State) : (finishInit s).msg = MsgState.empty := rfl
@[simp] theorem finishInit_keyed (s : State) : (finishInit s).keyed = true := rfl
@[simp] theorem finishInit_rsp (s : State) : (finishInit s).rsp = some ⟨.ok, 0⟩ := rfl
@[simp] theorem finishInit_cmd (s : State) : (finishInit s).cmd = s.cmd := rfl
@[simp] theorem finishInit_cipher (s : State) : (finishInit s).cipher = s.cipher := rfl
@[simp] theorem finishInit_inputs (s : State) : (finishInit s).inputs = s.inputs := rfl

/-- What any command but INIT can do: wait with its cipher request made, or respond, writing X, P, N at most; FINAL, TAGSIZE
and CMP do not write these either. -/
theorem exec_cases_of_ne_init {i : Instr} {s t : State} (hi : i ≠ .init) (h : exec i s = .next t) :
    (∃ f, t = { s with inflight := some f }) ∨
    (∃ a st d, t = (s.withMsg a).respond st d ∧ (i = .final ∨ i = .tagsize ∨ (∃ m m', i = .cmp m m') → a = s.msg)) := by
  have raised : exec i s = .next (s.raise .errNotKeyed) → t = (s.withMsg s.msg).respond .errNotKeyed 0 := by
    intro e
    rw [h] at e
    exact Host.Outcome.next.inj e
  cases i with
  | init => exact absurd rfl hi
  | update m =>
    rcases execUpdate_cases m s with ⟨_, e⟩ | ⟨_, _, e⟩ | ⟨_, _, _, e⟩
    · exact .inr ⟨_, _, _, raised e, fun _ => rfl⟩
    · exact .inr ⟨absorb s.encrypt s.msg m, _, _, Host.Outcome.next.inj (h.symm.trans e), by simp⟩
    · exact .inl ⟨_, Host.Outcome.next.inj (h.symm.trans e)⟩
  | final =>
    rcases execFinal_cases s with ⟨_, e⟩ | ⟨_, _, e⟩ | ⟨_, _, e⟩
    · exact .inr ⟨_, _, _, raised e, fun _ => rfl⟩
    · exact .inr ⟨s.msg, _, _, Host.Outcome.next.inj (h.symm.trans e), fun _ => rfl⟩
    · exact .inl ⟨_, Host.Outcome.next.inj (h.symm.trans e)⟩
  | reset =>
    rcases execReset_cases s with ⟨_, e⟩ | ⟨_, e⟩
    · exact .inr ⟨_, _, _, raised e, fun _ => rfl⟩
    · exact .inr ⟨MsgState.empty, _, _, Host.Outcome.next.inj (h.symm.trans e), by simp⟩
  | tagsize => exact .inr ⟨s.msg, _, _, (Host.Outcome.next.inj h).symm, fun _ => rfl⟩
  | cmp a b => exact .inr ⟨s.msg, _, _, (Host.Outcome.next.inj h).symm, fun _ => rfl⟩

/-- What INIT can do, as the state it leaves (`execInit_cases`). -/
theorem exec_init_cases {s t : State} (h : exec .init s = .next t) :
    (s.cipher.keyOk = false ∧ t = s.dropEngine.raise .errKey) ∨ (s.cipher.keyOk = true ∧ t = finishInit s) ∨
    (s.cipher.keyOk = true ∧ ∃ f, t = { s with inflight := some f }) := by
  rcases execInit_cases s with ⟨hk, e⟩ | ⟨hk, _, e⟩ | ⟨hk, _, e⟩
  · exact .inl ⟨hk, Host.Outcome.next.inj (h.symm.trans e)⟩
  · exact .inr (.inl ⟨hk, Host.Outcome.next.inj (h.symm.trans e)⟩)
  · exact .inr (.inr ⟨hk, _, Host.Outcome.next.inj (h.symm.trans e)⟩)

/-- Only INIT writes K1, K2 and KEYED, and only INIT draws free values. -/
theorem exec_keeps_engine {i : Instr} {s t : State} (hi : i ≠ .init) (h : exec i s = .next t) :
    t.k1 = s.k1 ∧ t.k2 = s.k2 ∧ t.keyed = s.keyed ∧ t.draws = s.draws := by
  rcases exec_cases_of_ne_init hi h with ⟨f, rfl⟩ | ⟨a, st, d, rfl, _⟩ <;> simp

/-- FINAL, TAGSIZE and CMP do not write the message state. -/
theorem exec_keeps_msg {i : Instr} {s t : State} (hi : i = .final ∨ i = .tagsize ∨ ∃ a b, i = .cmp a b)
    (h : exec i s = .next t) : t.msg = s.msg := by
  have ne_init : i ≠ .init := by rintro rfl; simp at hi
  rcases exec_cases_of_ne_init ne_init h with ⟨f, rfl⟩ | ⟨a, st, d, rfl, ha⟩
  · rfl
  · simpa using ha hi

/-- No command touches the host's wires, the cipher or the schedule. -/
theorem exec_keeps_wires {i : Instr} {s t : State} (h : exec i s = .next t) :
    t.cmd = s.cmd ∧ t.cipher = s.cipher ∧ t.inputs = s.inputs := by
  by_cases hi : i = .init
  · subst hi
    rcases exec_init_cases h with ⟨_, rfl⟩ | ⟨_, rfl⟩ | ⟨_, f, rfl⟩ <;> simp
  · rcases exec_cases_of_ne_init hi h with ⟨f, rfl⟩ | ⟨a, st, d, rfl, _⟩ <;> simp

/-- Settles O37: the frame of `exec`, register group by register group. -/
theorem commandsWriteOnlyTheirRegisters : Obligations.CommandsWriteOnlyTheirRegisters := by
  intro i s t h
  refine ⟨fun hi => exec_keeps_engine hi h, fun hi => ?_, exec_keeps_wires h⟩
  have hm := exec_keeps_msg hi h
  exact ⟨congrArg MsgState.x hm, congrArg MsgState.p hm, congrArg MsgState.n hm⟩

/-! ## KEYED (R26) -/

theorem finishCommand_keyed {i : Instr} (hi : i ≠ .init) (s : State) : (finishCommand i s).keyed = s.keyed := by
  cases i with
  | init => exact absurd rfl hi
  | update m | final | reset | tagsize | cmp a b => rfl

theorem State.nextInput_keyed {s : State} (h : ∀ rest, s.inputs ≠ .rst :: rest) : s.nextInput.keyed = s.keyed := by
  rcases s.nextInput_cases with
    ⟨_, e⟩ | ⟨_, _, _, e⟩ | ⟨_, _, e⟩ | ⟨_, _, _, e⟩ | ⟨rest, hr, _⟩
  iterate 4 · rw [e]
  · exact absurd hr (h rest)

/-- Serving the cipher port, hardware reset not being next, leaves KEYED alone or finishes an INIT. -/
theorem serveCipher_keyed (f : Inflight) {s : State} (h : ∀ rest, s.inputs ≠ .rst :: rest) :
    (serveCipher f s).keyed = s.keyed ∨
    (f.cmd = .init ∧ serveCipher f s = finishInit { s with inflight := none }) := by
  rcases serveCipher_cases f s with ⟨_, _, e⟩ | ⟨_, _, _, e⟩ | ⟨_, e⟩
  · by_cases hi : f.cmd = .init
    · exact .inr ⟨hi, by rw [e, hi]; rfl⟩
    · exact .inl (by rw [e, finishCommand_keyed hi])
  · exact .inl (by rw [e])
  · exact .inl (by rw [e, State.nextInput_keyed h])

/-- INIT is presented on a ready command port. -/
def State.AcceptsInit (s : State) : Prop := s.cmdReady = true ∧ ∃ c, s.cmd = some c ∧ decode c = .ok .init

/-- What a step can do to KEYED: hardware reset, nothing, a failed INIT, or the end of a successful INIT, which the step accepts
or which was in flight. -/
theorem step_keyed_cases {s t : State} (h : step s = .next t) :
    (s.inputs.head? = some .rst ∧ t.keyed = false) ∨
    t.keyed = s.keyed ∨
    (s.AcceptsInit ∧ s.cipher.keyOk = false ∧ t = ({ s with cmd := none }).dropEngine.raise .errKey) ∨
    (s.AcceptsInit ∧ s.cipher.keyOk = true ∧ t = finishInit { s with cmd := none }) ∨
    (∃ f, s.inflight = some f ∧ f.cmd = .init ∧ t = finishInit { s with inflight := none }) := by
  rcases step_cases s with
    ⟨rest, hr, e⟩ | ⟨hne, ⟨f, hf, e⟩ | ⟨c, i, hf, hp, hc, hd, e⟩ | ⟨c, x, _, _, _, _, e⟩ | ⟨_, _, e⟩⟩
  all_goals rw [h] at e
  · obtain rfl := Host.Outcome.next.inj e
    exact .inl ⟨by simp [hr], by simp⟩
  · obtain rfl := Host.Outcome.next.inj e
    rcases serveCipher_keyed f hne with hk | ⟨hi, hs⟩
    · exact .inr (.inl hk)
    · exact .inr (.inr (.inr (.inr ⟨f, hf, hi, hs⟩)))
  · by_cases hi : i = .init
    · subst hi
      have accepts : s.AcceptsInit := ⟨by simp [State.cmdReady, hf, hp], c, hc, hd⟩
      rcases exec_init_cases e.symm with ⟨hk, ht⟩ | ⟨hk, ht⟩ | ⟨_, f, ht⟩
      · exact .inr (.inr (.inl ⟨accepts, hk, ht⟩))
      · exact .inr (.inr (.inr (.inl ⟨accepts, hk, ht⟩)))
      · exact .inr (.inl (by rw [ht]))
    · obtain ⟨_, _, hk, _⟩ := exec_keeps_engine hi e.symm
      exact .inr (.inl hk)
  · obtain rfl := Host.Outcome.next.inj e
    exact .inr (.inl rfl)
  · obtain rfl := Host.Outcome.next.inj e
    exact .inr (.inl (State.nextInput_keyed hne))

/-- Settles O44: each clause goes through what a step can do to KEYED; a finished INIT reads the cipher the step finds. -/
theorem keyedChangesOnlyByInitOrReset : Obligations.KeyedChangesOnlyByInitOrReset := by
  intro s t h
  rcases step_keyed_cases h with
    ⟨hr, hk⟩ | hk | ⟨⟨hready, hinit⟩, hok, rfl⟩ | ⟨⟨hready, hinit⟩, hok, rfl⟩ | ⟨f, hf, hi, rfl⟩
  · exact ⟨fun _ _ => .inl hr, by simp [hk]⟩
  · exact ⟨by simp +contextual [hk], by simp +contextual [hk]⟩
  · exact ⟨fun _ _ => .inr ⟨hready, hok, hinit, rfl⟩, by simp⟩
  · exact ⟨by simp, fun _ _ =>
      ⟨.inl ⟨hready, hok, hinit⟩, finishInit_k1 _, finishInit_k2 _, finishInit_msg _, finishInit_rsp _⟩⟩
  · exact ⟨by simp, fun _ _ =>
      ⟨.inr ⟨f, hf, hi⟩, finishInit_k1 _, finishInit_k2 _, finishInit_msg _, finishInit_rsp _⟩⟩

end Sys2Proof.Machine
end

section
/-! SUPPORT. 20_memory.md: operand lanes, what a step does while a command or a response occupies the engine, and the response
of an accepted command. -/

namespace Sys2Proof.Machine

/-! ## Operand lanes (R52, R71) -/

theorem byteOf_eq_extractLsb' (v : Block) (i : Nat) (hi : i < 16) : byteOf v i = v.extractLsb' (8 * (15 - i)) 8 := by
  apply BitVec.eq_of_getLsbD_eq
  intro k _
  rw [getLsbD_byteOf _ _ _ hi, BitVec.getLsbD_extractLsb']

theorem laneBytes_getElem_eq_extractLsb' (v : Block) (len i : Nat) (hlen : len ≤ 16) (h : i < (laneBytes v len).length) :
    (laneBytes v len)[i] = v.extractLsb' (8 * (15 - i)) 8 := by
  rw [laneBytes_length] at h
  rw [laneBytes_getElem, byteOf_eq_extractLsb' _ _ (by omega)]

theorem decode_update_ok {c : Command} {m : List Byte} (h : decode c = .ok (.update m)) :
    headerRsv c.hdr = 0 ∧ headerOp c.hdr = 2 ∧ headerLen2 c.hdr = 0 ∧ (headerLen c.hdr).toNat ≤ 16 ∧
    m = laneBytes c.a (headerLen c.hdr).toNat := by
  simpa using decode_ok_cases h

theorem decode_cmp_ok {c : Command} {a b : List Byte} (h : decode c = .ok (.cmp a b)) :
    headerRsv c.hdr = 0 ∧ headerOp c.hdr = 6 ∧ (headerLen c.hdr).toNat ≤ 16 ∧ (headerLen2 c.hdr).toNat ≤ 16 ∧
    a = laneBytes c.a (headerLen c.hdr).toNat ∧ b = laneBytes c.b (headerLen2 c.hdr).toNat := by
  simpa using decode_ok_cases h

/-- Settles O5: the decoder reads whole lanes, and a lane is a byte of its group. -/
theorem operandBytesComeFromTheirLanes : Obligations.OperandBytesComeFromTheirLanes := by
  refine ⟨fun c m h => ?_, fun c a b h => ?_⟩
  · obtain ⟨_, _, _, hlen, rfl⟩ := decode_update_ok h
    exact ⟨laneBytes_length _ _, fun i => laneBytes_getElem_eq_extractLsb' _ _ i hlen⟩
  · obtain ⟨_, _, hlen, hlen2, rfl, rfl⟩ := decode_cmp_ok h
    exact ⟨laneBytes_length _ _, laneBytes_length _ _, fun i => laneBytes_getElem_eq_extractLsb' _ _ i hlen,
      fun i => laneBytes_getElem_eq_extractLsb' _ _ i hlen2⟩

/-! ## The step of an engine that is not ready (R61) -/

theorem State.cmdReady_eq_true_iff {s : State} : s.cmdReady = true ↔ s.inflight = none ∧ s.rsp = none := by
  simp [State.cmdReady]

theorem State.cmdReady_eq_false_iff {s : State} : s.cmdReady = false ↔ s.inflight ≠ none ∨ s.rsp ≠ none := by
  rw [← Bool.not_eq_true, State.cmdReady_eq_true_iff, Classical.not_and_iff_not_or_not]

theorem step_of_rst {s : State} {rest : List Input} (h : s.inputs = .rst :: rest) :
    step s = .next ({ s with inputs := rest }).hardwareReset := by
  rcases step_cases s with ⟨rest', hr, e⟩ | ⟨hne, _⟩
  · obtain rfl : rest = rest' := by simpa [h] using hr
    exact e
  · exact absurd h (hne rest)

/-- A command in flight has the engine's turn, hardware reset not being next. -/
theorem step_of_inflight {s : State} {f : Inflight} (hf : s.inflight = some f) (hrst : s.inputs.head? ≠ some .rst) :
    step s = .next (serveCipher f s) := by
  rcases step_cases s with ⟨rest, hr, _⟩ | ⟨_, ⟨f', hf', e⟩ | ⟨_, _, h, _⟩ | ⟨_, _, h, _⟩ | ⟨h, _⟩⟩
  · simp [hr] at hrst
  · obtain rfl : f = f' := by simpa [hf] using hf'
    exact e
  all_goals simp [hf] at h

/-- While a response waits to be taken the engine leaves the turn to the outside world, hardware reset not being next. -/
theorem step_of_response {s : State} (hf : s.inflight = none) (hp : s.rsp ≠ none) (hrst : s.inputs.head? ≠ some .rst) :
    step s = .next s.nextInput := by
  rcases step_cases s with ⟨rest, hr, _⟩ | ⟨_, ⟨_, h, _⟩ | ⟨_, _, _, h, _⟩ | ⟨_, _, _, h, _⟩ | ⟨_, _, e⟩⟩
  · simp [hr] at hrst
  · simp [hf] at h
  · exact absurd h hp
  · exact absurd h hp
  · exact e

/-- What an engine that is not ready can do: be reset, serve the cipher port, or wait for the outside world. -/
theorem step_cases_of_not_ready {s : State} (h : s.cmdReady = false) :
    (∃ rest, s.inputs = .rst :: rest) ∨
    (s.inputs.head? ≠ some .rst ∧ ((∃ f, s.inflight = some f) ∨ (s.inflight = none ∧ s.rsp ≠ none))) := by
  by_cases hrst : s.inputs.head? = some .rst
  · exact .inl (List.head?_eq_some_iff.mp hrst)
  · refine .inr ⟨hrst, ?_⟩
    rcases hf : s.inflight with _ | f
    · exact .inr ⟨rfl, by simpa [hf] using State.cmdReady_eq_false_iff.mp h⟩
    · exact .inl ⟨f, rfl⟩

/-! ## What the outside world leaves unchanged -/

/-- Hardware reset apart, the outside world writes no register and does not touch the command in flight. -/
theorem State.nextInput_keeps_engine {s : State} (hrst : s.inputs.head? ≠ some .rst) :
    s.nextInput.inflight = s.inflight ∧ s.nextInput.k1 = s.k1 ∧ s.nextInput.k2 = s.k2 ∧ s.nextInput.msg = s.msg ∧
    s.nextInput.keyed = s.keyed := by
  rcases s.nextInput_cases with
    ⟨_, e⟩ | ⟨_, _, _, e⟩ | ⟨_, _, e⟩ | ⟨_, _, _, e⟩ | ⟨rest, hr, _⟩
  iterate 4 · rw [e]; exact ⟨rfl, rfl, rfl, rfl, rfl⟩
  · simp [hr] at hrst

/-- The response port changes only by the host's taking and by hardware reset, and is empty after either. -/
theorem State.nextInput_rsp (s : State) :
    s.nextInput.rsp = s.rsp ∨
    ((s.inputs.head? = some .take ∨ s.inputs.head? = some .rst) ∧ s.nextInput.rsp = none) := by
  rcases s.nextInput_cases with
    ⟨_, e⟩ | ⟨_, _, _, e⟩ | ⟨_, h, e⟩ | ⟨_, _, _, e⟩ | ⟨_, h, e⟩
  · exact .inl (by rw [e])
  · exact .inl (by rw [e])
  · exact .inr ⟨.inl (by rw [h]; rfl), by rw [e]⟩
  · exact .inl (by rw [e])
  · exact .inr ⟨.inr (by rw [h]; rfl), by rw [e]; rfl⟩

/-- Serving a request that is not answered takes the request at most, or lets the outside world act. -/
theorem serveCipher_of_unanswered {s : State} {f : Inflight}
    (h : s.cipher.rspValid = false ∨ (f.sent = false ∧ s.cipher.reqReady = false)) :
    serveCipher f s = { s with inflight := some { f with sent := true } } ∨ serveCipher f s = s.nextInput := by
  rcases serveCipher_cases f s with ⟨hv, hs, _⟩ | ⟨_, _, _, e⟩ | ⟨_, e⟩
  · rcases h with h | ⟨h, h'⟩
    · simp [h] at hv
    · simp [h, h'] at hs
  · exact .inl e
  · exact .inr e

/-- Settles O40: the two things the engine can do with an unanswered request both keep the command and the registers. -/
theorem unansweredCommandWaits : Obligations.UnansweredCommandWaits := by
  intro s t f hf hp hun hrst h
  obtain rfl : serveCipher f s = t := Host.Outcome.next.inj ((step_of_inflight hf hrst).symm.trans h)
  rcases serveCipher_of_unanswered hun with e | e <;> rw [e]
  · exact ⟨hp, ⟨true, rfl⟩, rfl, rfl, rfl, rfl⟩
  · obtain ⟨hin, hregs⟩ := State.nextInput_keeps_engine hrst
    have hrsp : s.nextInput.rsp = none := by
      rcases s.nextInput_rsp with e | ⟨_, e⟩
      · rw [e, hp]
      · exact e
    exact ⟨hrsp, ⟨f.sent, hin.trans hf⟩, hregs⟩

/-- Settles O42: the engine waits, and only taking and hardware reset touch the response. -/
theorem responseIsStableUntilTaken : Obligations.ResponseIsStableUntilTaken := by
  intro s t r hp hf hrst htake h
  obtain rfl : s.nextInput = t := Host.Outcome.next.inj ((step_of_response hf (by simp [hp]) hrst).symm.trans h)
  obtain ⟨hin, hregs⟩ := State.nextInput_keeps_engine hrst
  have hrsp : s.nextInput.rsp = s.rsp := by simpa [hrst, htake] using s.nextInput_rsp
  exact ⟨hrsp.trans hp, hin.trans hf, hregs⟩

/-! ## The command port of an engine that is not ready (R61, R63) -/

/-- From `s` the engine goes to `t`, and to `t'` with `c` on the command port instead: either nobody drives the port, which keeps
what is on it, or the host drives it anew, and then the two states are one. -/
def SameButPort (c : Option Command) (s t t' : State) : Prop :=
  (t' = { t with cmd := c } ∧ (t.inputs = s.inputs ∨ ∀ d, s.inputs.head? ≠ some (.drive d))) ∨
  (∃ d rest, s.inputs = .drive d :: rest ∧ t.inputs = rest ∧ t.cmd = d ∧ t' = t)

/-- The outside world does not read the command port. -/
theorem State.nextInput_sameButPort (s : State) (c : Option Command) :
    SameButPort c s s.nextInput ({ s with cmd := c }).nextInput := by
  rcases h : s.inputs with _ | ⟨d | _ | _ | _, rest⟩
  case cons.drive => exact .inr ⟨d, rest, h, by simp [State.nextInput, State.applyInput, h]⟩
  all_goals exact .inl ⟨by simp [State.nextInput, State.applyInput, h] <;> rfl, .inr (by simp [h])⟩

theorem finishCommand_withCmd (i : Instr) (s : State) (c : Option Command) :
    finishCommand i { s with cmd := c } = { finishCommand i s with cmd := c } := by
  cases i with
  | init | update m | final | reset | tagsize | cmp a b => rfl

theorem finishCommand_inputs (i : Instr) (s : State) : (finishCommand i s).inputs = s.inputs := by
  cases i with
  | init | update m | final | reset | tagsize | cmp a b => rfl

/-- Serving the cipher port does not read the command port. -/
theorem serveCipher_sameButPort (f : Inflight) (s : State) (c : Option Command) :
    SameButPort c s (serveCipher f s) (serveCipher f { s with cmd := c }) := by
  unfold serveCipher
  split
  · exact .inl ⟨finishCommand_withCmd f.cmd { s with inflight := none } c, .inl (finishCommand_inputs _ _)⟩
  · split
    · exact .inl ⟨rfl, .inl rfl⟩
    · exact s.nextInput_sameButPort c

/-- While `cmd_ready` = 0 the step does not read the command port. -/
theorem step_sameButPort_of_not_ready {s t t' : State} {c : Option Command} (hready : s.cmdReady = false)
    (h : step s = .next t) (h' : step { s with cmd := c } = .next t') : SameButPort c s t t' := by
  rcases step_cases_of_not_ready hready with ⟨rest, hr⟩ | ⟨hrst, ⟨f, hf⟩ | ⟨hf, hp⟩⟩
  · obtain rfl := Host.Outcome.next.inj ((step_of_rst hr).symm.trans h)
    obtain rfl := Host.Outcome.next.inj ((step_of_rst (s := { s with cmd := c }) hr).symm.trans h')
    exact .inl ⟨rfl, .inr (by simp [hr])⟩
  · obtain rfl := Host.Outcome.next.inj ((step_of_inflight hf hrst).symm.trans h)
    obtain rfl := Host.Outcome.next.inj ((step_of_inflight (s := { s with cmd := c }) hf hrst).symm.trans h')
    exact serveCipher_sameButPort f s c
  · obtain rfl := Host.Outcome.next.inj ((step_of_response hf hp hrst).symm.trans h)
    obtain rfl := Host.Outcome.next.inj ((step_of_response (s := { s with cmd := c }) hf hp hrst).symm.trans h')
    exact s.nextInput_sameButPort c

/-- Settles O41: each clause about the port belongs to one way the port can fare, and contradicts the other. -/
theorem presentedCommandHasNoEffectWhileBusy : Obligations.PresentedCommandHasNoEffectWhileBusy := by
  intro s t t' c hready h h'
  rcases step_sameButPort_of_not_ready hready h h' with ⟨rfl, hkeep⟩ | ⟨d, rest, hdrive, hin, hcmd, rfl⟩
  · refine ⟨rfl, fun _ => rfl, fun d rest hdrive hin => ?_⟩
    rcases hkeep with e | e
    · simp [hin, hdrive] at e
    · simp [hdrive] at e
  · refine ⟨rfl, fun hkept => ?_, fun d' rest' hdrive' _ => ?_⟩
    · rcases hkept with e | e
      · simp [hdrive] at e
      · simp [hin, hdrive] at e
    · obtain ⟨rfl, rfl⟩ : d = d' ∧ rest = rest' := by simpa [hdrive] using hdrive'
      exact hcmd

/-! ## One response for each accepted command (R56, R61) -/

/-- A command was accepted in `s` and left in `t`: it has its response and is not in flight, or it waits for a silent cipher
with the response port untouched. -/
def RespondsOrWaits (s t : State) : Prop :=
  (t.inflight = s.inflight ∧ t.rsp ≠ none) ∨ (s.cipherAnswers = false ∧ t.inflight ≠ none ∧ t.rsp = s.rsp)

theorem exec_respondsOrWaits (i : Instr) (s : State) : ∃ t, exec i s = .next t ∧ RespondsOrWaits s t := by
  have responded : ∀ u : State, u.inflight = s.inflight → ∀ st d, RespondsOrWaits s (u.respond st d) :=
    fun u hu st d => .inl ⟨hu, by simp⟩
  have waiting : s.cipherAnswers = false → ∀ f, RespondsOrWaits s { s with inflight := some f } :=
    fun h f => .inr ⟨h, by simp, rfl⟩
  cases i with
  | init =>
    rcases execInit_cases s with ⟨_, e⟩ | ⟨_, _, e⟩ | ⟨_, h, e⟩
    · exact ⟨_, e, responded s.dropEngine rfl _ _⟩
    · exact ⟨_, e, .inl ⟨rfl, by simp⟩⟩
    · exact ⟨_, e, waiting h _⟩
  | update m =>
    rcases execUpdate_cases m s with ⟨_, e⟩ | ⟨_, _, e⟩ | ⟨_, _, h, e⟩
    · exact ⟨_, e, responded s rfl _ _⟩
    · exact ⟨_, e, responded (s.withMsg _) rfl _ _⟩
    · exact ⟨_, e, waiting h _⟩
  | final =>
    rcases execFinal_cases s with ⟨_, e⟩ | ⟨_, _, e⟩ | ⟨_, h, e⟩
    · exact ⟨_, e, responded s rfl _ _⟩
    · exact ⟨_, e, responded s rfl _ _⟩
    · exact ⟨_, e, waiting h _⟩
  | reset =>
    rcases execReset_cases s with ⟨_, e⟩ | ⟨_, e⟩
    · exact ⟨_, e, responded s rfl _ _⟩
    · exact ⟨_, e, responded s.clearMessage rfl _ _⟩
  | tagsize => exact ⟨_, rfl, responded s rfl _ _⟩
  | cmp a b => exact ⟨_, rfl, responded s rfl _ _⟩

/-- A ready engine takes the presented command, legal or not, off the port and responds or waits. -/
theorem step_respondsOrWaits_of_ready {s : State} {c : Command} (hcmd : s.cmd = some c) (hready : s.cmdReady = true)
    (hrst : s.inputs.head? ≠ some .rst) : ∃ t, step s = .next t ∧ t.cmd = none ∧ RespondsOrWaits s t := by
  obtain ⟨hf, hp⟩ := State.cmdReady_eq_true_iff.mp hready
  rcases step_cases s with
    ⟨rest, h, _⟩ | ⟨_, ⟨f, h, _⟩ | ⟨_, i, _, _, _, _, e⟩ | ⟨_, _, _, _, _, _, e⟩ | ⟨_, h, _⟩⟩
  · simp [h] at hrst
  · simp [hf] at h
  · obtain ⟨t, ht, hresp⟩ := exec_respondsOrWaits i { s with cmd := none }
    obtain ⟨hport, _⟩ := exec_keeps_wires ht
    exact ⟨t, e.trans ht, hport, hresp⟩
  · exact ⟨_, e, rfl, .inl ⟨rfl, by simp⟩⟩
  · simp [hp, hcmd] at h

/-- Settles O43: on a ready engine the two ways to fare are exactly a response and none in flight, or the reverse. -/
theorem acceptedCommandRespondsOrWaits : Obligations.AcceptedCommandRespondsOrWaits := by
  intro s c hcmd hready hrst
  obtain ⟨hf, hp⟩ := State.cmdReady_eq_true_iff.mp hready
  obtain ⟨t, e, hport, hresp⟩ := step_respondsOrWaits_of_ready hcmd hready hrst
  refine ⟨t, e, hport, ?_⟩
  rcases hresp with ⟨htf, htp⟩ | ⟨hsilent, htf, htp⟩
  · rw [hf] at htf
    have hsome := Option.isSome_iff_ne_none.mpr htp
    exact ⟨State.cmdReady_eq_false_iff.mpr (.inr htp), by simp [htf, hsome], by simp [htf]⟩
  · rw [hp] at htp
    have hsome := Option.isSome_iff_ne_none.mpr htf
    exact ⟨State.cmdReady_eq_false_iff.mpr (.inl htf), by simp [htp, hsome], fun _ => hsilent⟩

end Sys2Proof.Machine
end

section
/-! SUPPORT. 30_encoding.md R73: the converse of `decode_ok_cases`, header by header, and the fields of a header as numbers. -/

namespace Sys2Proof

/-! ## The fields of a header as numbers (R70) -/

theorem headerOp_eq_iff {h : BitVec 32} {op : BitVec 4} : headerOp h = op ↔ h.toNat / 2 ^ 28 = op.toNat := by
  rw [BitVec.toNat_eq, headerOp, BitVec.extractLsb'_toNat, Nat.shiftRight_eq_div_pow]
  omega

theorem headerRsv_eq_zero_iff {h : BitVec 32} : headerRsv h = 0 ↔ h.toNat / 2 ^ 16 % 2 ^ 12 = 0 := by
  rw [BitVec.toNat_eq, headerRsv, BitVec.extractLsb'_toNat, Nat.shiftRight_eq_div_pow]
  rfl

theorem headerLen2_eq_zero_iff {h : BitVec 32} : headerLen2 h = 0 ↔ h.toNat / 2 ^ 8 % 2 ^ 8 = 0 := by
  rw [BitVec.toNat_eq, headerLen2, BitVec.extractLsb'_toNat, Nat.shiftRight_eq_div_pow]
  rfl

theorem headerLen_toNat (h : BitVec 32) : (headerLen h).toNat = h.toNat % 2 ^ 8 := by
  rw [headerLen, BitVec.extractLsb'_toNat, Nat.shiftRight_zero]

/-- The headers with an UPDATE's fields are one interval: `len` is the low byte and the rest is fixed. -/
theorem updateFields_iff_range {h : BitVec 32} :
    (headerRsv h = 0 ∧ headerOp h = 2 ∧ headerLen2 h = 0 ∧ (headerLen h).toNat ≤ 16) ↔
      0x20000000#32 ≤ h ∧ h ≤ 0x20000010#32 := by
  rw [headerRsv_eq_zero_iff, headerOp_eq_iff, headerLen2_eq_zero_iff, headerLen_toNat, BitVec.le_def, BitVec.le_def]
  simp only [BitVec.toNat_ofNat, BitVec.ofNat_eq_ofNat]
  omega

/-- The high half of a header is `op` above `rsv`. -/
theorem cmpFields_iff_highHalf {h : BitVec 32} :
    (headerRsv h = 0 ∧ headerOp h = 6) ↔ h.extractLsb' 16 16 = 0x6000#16 := by
  rw [headerRsv_eq_zero_iff, headerOp_eq_iff, BitVec.toNat_eq, BitVec.extractLsb'_toNat, Nat.shiftRight_eq_div_pow]
  simp only [BitVec.toNat_ofNat, BitVec.ofNat_eq_ofNat]
  omega

/-! ## What decodes to each command (R73) -/

/-- A command without operands is spelled by the encoder's header alone, whatever the lanes hold. -/
theorem decode_eq_ok_iff_of_no_operand {c : Command} {i : Instr}
    (hi : i = .init ∨ i = .final ∨ i = .reset ∨ i = .tagsize) : decode c = .ok i ↔ c.hdr = (encode i).hdr := by
  constructor
  · intro e
    obtain ⟨hrsv, hcases⟩ := decode_ok_cases e
    rw [← header_ext hrsv]
    rcases hi with rfl | rfl | rfl | rfl <;> simp at hcases <;> simp [hcases, encode]
  · intro h
    rcases hi with rfl | rfl | rfl | rfl <;> simp [decode, decodePlain, h, encode]

theorem exists_decode_eq_update_iff {c : Command} :
    (∃ m, decode c = .ok (.update m)) ↔
      headerRsv c.hdr = 0 ∧ headerOp c.hdr = 2 ∧ headerLen2 c.hdr = 0 ∧ (headerLen c.hdr).toNat ≤ 16 := by
  constructor
  · rintro ⟨m, e⟩
    obtain ⟨hrsv, hop, hlen2, hlen, _⟩ := Machine.decode_update_ok e
    exact ⟨hrsv, hop, hlen2, hlen⟩
  · rintro ⟨hrsv, hop, hlen2, hlen⟩
    simp [decode, decodeUpdate, Config.blockSize, hrsv, hop, hlen2, Nat.not_lt.mpr hlen]

theorem exists_decode_eq_cmp_iff {c : Command} :
    (∃ a b, decode c = .ok (.cmp a b)) ↔
      headerRsv c.hdr = 0 ∧ headerOp c.hdr = 6 ∧ (headerLen2 c.hdr).toNat ≤ 16 ∧ (headerLen c.hdr).toNat ≤ 16 := by
  constructor
  · rintro ⟨a, b, e⟩
    obtain ⟨hrsv, hop, hlen, hlen2, _⟩ := Machine.decode_cmp_ok e
    exact ⟨hrsv, hop, hlen2, hlen⟩
  · rintro ⟨hrsv, hop, hlen2, hlen⟩
    simp [decode, decodeCmp, Config.cmpMax, hrsv, hop, Nat.not_lt.mpr hlen2, Nat.not_lt.mpr hlen]

/-- Settles O4: a plain command's header is the encoder's; UPDATE's fields are an interval, CMP's a high half and two bounds. -/
theorem legalHeadersExactly : Obligations.LegalHeadersExactly := fun c =>
  ⟨decode_eq_ok_iff_of_no_operand (by simp),
   exists_decode_eq_update_iff.trans updateFields_iff_range,
   decode_eq_ok_iff_of_no_operand (by simp),
   decode_eq_ok_iff_of_no_operand (by simp),
   decode_eq_ok_iff_of_no_operand (by simp),
   exists_decode_eq_cmp_iff.trans (and_assoc.symm.trans (and_congr_left' cmpFields_iff_highHalf))⟩

end Sys2Proof
end

section
/-! SUPPORT. 40_init_subkeys.md: a successful INIT, and the subkeys it derives. -/

namespace Sys2Proof.Machine

/-- The bit DBL tests is the most significant one of the block (00_scope.md R7, R10). -/
theorem dbl_eq_ite_getLsbD (v : Block) : dbl v = if v.getLsbD 127 then (v <<< 1) ^^^ 0x87 else v <<< 1 := by
  rw [dbl, blockMsb, BitVec.msb_eq_getLsbD_last]
  rfl

/-- INIT whose cipher is keyed and answers (R100, R101). -/
theorem exec_init_of_answers {s : State} (hkey : s.cipher.keyOk = true) (hanswers : s.cipherAnswers = true) :
    exec .init s = .next (finishInit s) := by
  rcases execInit_cases s with ⟨hnokey, _⟩ | ⟨_, _, e⟩ | ⟨_, hsilent, _⟩
  · simp [hkey] at hnokey
  · exact e
  · simp [hanswers] at hsilent

/-- The whole state a finished INIT leaves (R102 to R104): the fields named here, every other as it was. -/
theorem finishInit_eq (s : State) :
    finishInit s =
      { s with
        k1 := dbl (s.encrypt 0), k2 := dbl (dbl (s.encrypt 0)), x := 0, p := 0, n := 0, keyed := true
        rsp := some ⟨.ok, 0⟩ } := rfl

/-- Settles O16: INIT finishes at once, and its two doublings are the written shifts and conditional xors. -/
theorem initDerivesSubkeys : Obligations.InitDerivesSubkeys := by
  intro s hkey hanswers
  simp only [← dbl_eq_ite_getLsbD]
  rw [exec_init_of_answers hkey hanswers, finishInit_eq]

/-- Settles O18: each INIT finishes, with subkeys that are doublings of a block on which the two engines agree. -/
theorem subkeysDependOnTheZeroBlockAlone : Obligations.SubkeysDependOnTheZeroBlockAlone := by
  intro s s' t t' hkey hkey' hanswers hanswers' hzero ht ht'
  obtain rfl := Host.Outcome.next.inj ((exec_init_of_answers hkey hanswers).symm.trans ht)
  obtain rfl := Host.Outcome.next.inj ((exec_init_of_answers hkey' hanswers').symm.trans ht')
  simp only [finishInit_k1, finishInit_k2, hzero, and_self]

end Sys2Proof.Machine
end

section
/-! SUPPORT. 41_update.md: `update` of the empty string (R126), of a concatenation (R127), and the closed form of a message (R129). -/

namespace Sys2Proof.Machine

/-! ## `update(m)` as a function of the message state -/

theorem absorb_nil (E : Block → Block) {a : MsgState} (ha : a.n.toNat ≤ 16) : absorb E a [] = a := by
  rw [absorb_eq_foldl E a [] ha, List.foldl_nil]

theorem absorbByte_n_le (E : Block → Block) (a : MsgState) (b : Byte) : (absorbByte E a b).n.toNat ≤ 16 := by
  rw [absorbByte_n]
  split <;> omega

/-- N stays at most B (R25), whatever P holds beyond N. -/
theorem absorb_n_le (E : Block → Block) {a : MsgState} (m : List Byte) (ha : a.n.toNat ≤ 16) :
    (absorb E a m).n.toNat ≤ 16 := by
  rw [absorb_eq_foldl E a m ha]
  induction m generalizing a with
  | nil => exact ha
  | cons b m ih => exact ih (absorbByte_n_le E a b)

/-- Chunking invariance on the message state: both sides are the same bytes, one after another. -/
theorem absorb_append (E : Block → Block) {a : MsgState} (m m' : List Byte) (ha : a.n.toNat ≤ 16) :
    absorb E a (m ++ m') = absorb E (absorb E a m) m' := by
  rw [absorb_eq_foldl E (absorb E a m) m' (absorb_n_le E m ha), absorb_eq_foldl E a _ ha, absorb_eq_foldl E a m ha,
    List.foldl_append]

/-! ## The closed form (R129) -/

/-- The first `i` blocks of a message, each followed by at least one more byte, are flushed into the chain. -/
theorem foldl_absorbByte_eq_chain (E : Block → Block) (M : List Byte) (i : Nat) (hi : i ≤ flushedBlocks M) :
    M.foldl (absorbByte E) MsgState.empty = (M.drop (i * 16)).foldl (absorbByte E) ⟨chain E M i, 0, 0⟩ := by
  induction i with
  | zero => rw [Nat.zero_mul, List.drop_zero]; rfl
  | succ i ih =>
    have hlen : (i + 1) * 16 < M.length := by
      simp only [flushedBlocks, blockSize_eq] at hi
      omega
    have hblock : ((M.drop (i * 16)).take 16).length = 16 := by
      rw [List.length_take, List.length_drop]
      omega
    have hrest : (M.drop (i * 16)).drop 16 = M.drop ((i + 1) * 16) := by
      rw [List.drop_drop, Nat.succ_mul]
    have flush := foldl_absorbByte_flush E ⟨chain E M i, 0, 0⟩ ((M.drop (i * 16)).take 16) ((M.drop (i * 16)).drop 16)
      (by simpa using hblock) (by simpa [hrest] using hlen)
    rw [List.take_append_drop, hrest] at flush
    exact (ih (by omega)).trans flush

theorem pendingBytes_length_le (M : List Byte) : (pendingBytes M).length ≤ 16 := by
  simp only [pendingBytes, flushedBlocks, blockSize_eq, List.length_drop]
  omega

/-- `update(M)` on the empty message: q blocks are flushed and the rest fits. -/
theorem absorb_empty_eq_msgStateOf (E : Block → Block) (M : List Byte) :
    absorb E MsgState.empty M = msgStateOf E M := by
  calc absorb E MsgState.empty M
    _ = M.foldl (absorbByte E) MsgState.empty := absorb_eq_foldl E _ M (by simp)
    _ = (pendingBytes M).foldl (absorbByte E) ⟨chain E M (flushedBlocks M), 0, 0⟩ :=
        foldl_absorbByte_eq_chain E M _ (Nat.le_refl _)
    _ = keepTail ⟨chain E M (flushedBlocks M), 0, 0⟩ (pendingBytes M) :=
        foldl_absorbByte_fits E _ _ (by simpa using pendingBytes_length_le M)
    _ = msgStateOf E M := by simp [keepTail, msgStateOf, blockOf]

/-! ## Commands -/

/-- The whole state a finished UPDATE leaves (R121, R128): X, P, N and the response, every other field as it was. -/
theorem finishUpdate_eq (m : List Byte) (s : State) :
    finishUpdate m s = { s.withMsg (absorb s.encrypt s.msg m) with rsp := some ⟨.ok, zext m.length⟩ } := rfl

/-- Settles O21: the empty string never overfills P, and absorbing it keeps the message state. -/
theorem emptyUpdateIsNoOp : Obligations.EmptyUpdateIsNoOp := by
  intro s hk hn
  rcases execUpdate_cases [] s with ⟨hnot, _⟩ | ⟨_, _, e⟩ | ⟨_, hf, _, _⟩
  · simp [hk] at hnot
  · refine e.trans ?_
    rw [finishUpdate_eq, absorb_nil s.encrypt (a := s.msg) hn]
    rfl
  · have excess := (flushes_iff s.n []).mp hf
    rw [List.length_nil] at excess
    omega

/-- FINAL's answer does not depend on the response that was there before. -/
theorem exec_final_withRsp {s : State} (hk : s.keyed = true) (ha : s.cipherAnswers = true) (r : Option Response) :
    exec .final { s with rsp := r } = exec .final s :=
  (exec_final_of_answers (s := { s with rsp := r }) hk ha).trans (exec_final_of_answers hk ha).symm

/-- Settles O22: `absorb_append` at the message state; FINAL in between and at the end touches only the response. -/
theorem chunkingInvariance : Obligations.ChunkingInvariance := by
  intro s t u v w a b hk ha hn ht hu hv hw
  obtain rfl := Host.Outcome.next.inj ((exec_update_of_answers a hk ha).symm.trans ht)
  obtain rfl := Host.Outcome.next.inj ((exec_final_of_answers (s := finishUpdate a s) hk ha).symm.trans hu)
  obtain rfl := Host.Outcome.next.inj
    ((exec_update_of_answers (s := finishFinal (finishUpdate a s)) b hk ha).symm.trans hv)
  obtain rfl := Host.Outcome.next.inj ((exec_update_of_answers (a ++ b) hk ha).symm.trans hw)
  have same : finishUpdate b (finishFinal (finishUpdate a s)) =
      { finishUpdate (a ++ b) s with rsp := some ⟨.ok, zext b.length⟩ } := by
    rw [finishUpdate_eq (a ++ b), absorb_append s.encrypt (a := s.msg) a b hn]
    rfl
  rw [same]
  exact ⟨rfl, exec_final_withRsp (s := finishUpdate (a ++ b) s) hk ha _⟩

/-- On a keyed engine whose cipher answers, every command but INIT and RESET absorbs the message bytes it brings, which may be
none, and changes nothing else but the response. -/
theorem exec_absorbs_messagePart {i : Instr} {s : State} (hk : s.keyed = true) (ha : s.cipherAnswers = true)
    (hn : s.n.toNat ≤ 16) (hi : i ≠ .init ∧ i ≠ .reset) :
    ∃ r, exec i s = .next { s.withMsg (absorb s.encrypt s.msg (messagePart i)) with rsp := r } := by
  have absorbNothing : absorb s.encrypt s.msg [] = s.msg := absorb_nil s.encrypt hn
  cases i with
  | init => exact absurd rfl hi.1
  | update m => exact ⟨_, exec_update_of_answers m hk ha⟩
  | final => rw [messagePart, absorbNothing]; exact ⟨_, exec_final_of_answers hk ha⟩
  | reset => exact absurd rfl hi.2
  | tagsize => rw [messagePart, absorbNothing]; exact ⟨_, rfl⟩
  | cmp a b => rw [messagePart, absorbNothing]; exact ⟨_, rfl⟩

@[simp] theorem messageBytes_nil : messageBytes [] = [] := rfl

@[simp] theorem messageBytes_cons (i : Instr) (cs : List Instr) :
    messageBytes (i :: cs) = messagePart i ++ messageBytes cs := rfl

/-- A sequence of such commands absorbs the message its UPDATEs bring, as one `update` of it would. -/
theorem execAll_absorbs_messageBytes {cs : List Instr} {s : State} (hk : s.keyed = true) (ha : s.cipherAnswers = true)
    (hin : s.inflight = none) (hn : s.n.toNat ≤ 16) (hcs : ∀ i ∈ cs, i ≠ .init ∧ i ≠ .reset) :
    ∃ r, execAll cs s = .next { s.withMsg (absorb s.encrypt s.msg (messageBytes cs)) with rsp := r } := by
  induction cs generalizing s with
  | nil =>
    refine ⟨s.rsp, ?_⟩
    rw [messageBytes_nil, absorb_nil s.encrypt (a := s.msg) hn]
    rfl
  | cons i cs ih =>
    obtain ⟨r, hfirst⟩ := exec_absorbs_messagePart (s := { s with rsp := none }) hk ha hn (hcs i List.mem_cons_self)
    obtain ⟨r', hrest⟩ := ih (s := { s.withMsg (absorb s.encrypt s.msg (messagePart i)) with rsp := r }) hk ha hin
      (absorb_n_le s.encrypt (a := s.msg) _ hn) (fun j hj => hcs j (List.mem_cons_of_mem i hj))
    refine ⟨r', (execAll_cons cs hfirst hin).trans (hrest.trans ?_)⟩
    rw [messageBytes_cons, absorb_append s.encrypt (a := s.msg) _ _ hn]
    rfl

/-- Settles O23: the sequence absorbs its message, and the closed form is what absorbing it from the empty message leaves. -/
theorem messageStateClosedForm : Obligations.MessageStateClosedForm := by
  intro s cs hk ha hin hempty hcs
  have hn : s.msg.n.toNat ≤ 16 := by simp [hempty]
  rw [← absorb_empty_eq_msgStateOf, ← hempty]
  exact execAll_absorbs_messageBytes hk ha hin hn hcs

end Sys2Proof.Machine
end

section
/-! SUPPORT. 42_final.md: the scratch block of a message (R141 to R143), what FINAL leaves unchanged (R145), and the closed form of
the tag (R147). -/

namespace Sys2Proof.Machine

/-! ## The scratch block of a message -/

/-- Xoring `b` into byte `i` of a block, as FINAL pads (R143). -/
theorem byteOf_setByte_xor (v : Block) (i j : Nat) (b : Byte) (hi : i < 16) (hj : j < 16) :
    byteOf (setByte v i (byteOf v i ^^^ b)) j = byteOf v j ^^^ (if j = i then b else 0) := by
  rw [byteOf_setByte _ _ _ _ hi hj]
  by_cases h : j = i
  · rw [if_pos h, if_pos h, h]
  · rw [if_neg h, if_neg h]
    exact (BitVec.xor_zero).symm

/-- The byte after the listed ones was zero, so writing `b` there is xoring `b` into it. -/
theorem byteOf_blockOf_append_singleton (r : List Byte) (b : Byte) (j : Nat) (hj : j < 16) :
    byteOf (blockOf (r ++ [b])) j = byteOf (blockOf r) j ^^^ (if j = r.length then b else 0) := by
  rw [byteOf_blockOf _ _ hj, byteOf_blockOf _ _ hj]
  rcases Nat.lt_trichotomy j r.length with h | h | h
  · simp [List.getElem?_append_left h, Nat.ne_of_lt h]
  · simp [h]
  · simp [List.getElem?_append_right (Nat.le_of_lt h), List.getElem?_eq_none (Nat.le_of_lt h), Nat.ne_of_gt h,
      Nat.sub_ne_zero_of_lt h]

/-- The padding branch of FINAL on the pending bytes `r`: K2, and 0x80 behind them. -/
theorem setByte_xor_eq_blockOf_append (x k : Block) (r : List Byte) (hr : r.length < 16) :
    setByte (blockOf r ^^^ x ^^^ k) r.length (byteOf (blockOf r ^^^ x ^^^ k) r.length ^^^ 0x80) =
      x ^^^ blockOf (r ++ [0x80]) ^^^ k := by
  apply block_ext
  intro j hj
  rw [byteOf_setByte_xor _ _ _ _ hr hj]
  simp only [byteOf_xor, byteOf_blockOf_append_singleton _ _ _ hj]
  ac_rfl

theorem msgStateOf_n_toNat (E : Block → Block) (M : List Byte) :
    (msgStateOf E M).n.toNat = (pendingBytes M).length := by
  have hle := pendingBytes_length_le M
  rw [msgStateOf, BitVec.toNat_ofNat]
  omega

/-- N = B exactly after a message that is not empty and that B divides. -/
theorem pendingBytes_length_eq_iff (M : List Byte) :
    (pendingBytes M).length = 16 ↔ M.length ≠ 0 ∧ M.length % 16 = 0 := by
  simp only [pendingBytes, flushedBlocks, blockSize_eq, List.length_drop]
  omega

/-- FINAL sends to the cipher the last block of the closed form, branch by branch. -/
theorem encrypt_scratchBlock_msgStateOf (E : Block → Block) (k1 k2 : Block) (M : List Byte) :
    E (scratchBlock k1 k2 (msgStateOf E M)) = cmac E k1 k2 M := by
  simp only [scratchBlock, cmac, blockSize_eq, msgStateOf_n_toNat, ← pendingBytes_length_eq_iff]
  by_cases hfull : (pendingBytes M).length = 16
  · rw [if_pos hfull, if_pos hfull]
    exact congrArg (fun v => E (v ^^^ k1)) (BitVec.xor_comm _ _)
  · have hroom : (pendingBytes M).length < 16 := Nat.lt_of_le_of_ne (pendingBytes_length_le M) hfull
    rw [if_neg hfull, if_neg hfull]
    exact congrArg E (setByte_xor_eq_blockOf_append _ k2 _ hroom)

/-! ## Commands -/

/-- UPDATE's effect does not depend on the response that was there before. -/
theorem exec_update_withRsp (m : List Byte) {s : State} (hk : s.keyed = true) (ha : s.cipherAnswers = true)
    (r : Option Response) : exec (.update m) { s with rsp := r } = exec (.update m) s :=
  (exec_update_of_answers (s := { s with rsp := r }) m hk ha).trans (exec_update_of_answers m hk ha).symm

/-- Settles O26: FINAL leaves the state it found with another response, and neither FINAL nor UPDATE reads the response. -/
theorem finalIsIdempotent : Obligations.FinalIsIdempotent := by
  intro s t hk ha ht
  obtain rfl := Host.Outcome.next.inj ((exec_final_of_answers hk ha).symm.trans ht)
  exact ⟨rfl, (exec_final_withRsp hk ha _).trans ht, fun m => exec_update_withRsp m hk ha _⟩

/-- RESET on a keyed engine. -/
theorem exec_reset_of_keyed {s : State} (hk : s.keyed = true) :
    exec .reset s = .next (s.clearMessage.respond .ok 0) := by
  rcases execReset_cases s with ⟨h, _⟩ | ⟨_, e⟩
  · simp [hk] at h
  · exact e

/-- A sequence that ran to its end goes on with what follows it. -/
theorem execAll_append {cs : List Instr} {s t : State} (ds : List Instr) (h : execAll cs s = .next t)
    (ht : t.inflight = none) : execAll (cs ++ ds) s = execAll ds t := by
  induction cs generalizing s with
  | nil =>
    cases h
    rfl
  | cons i cs ih =>
    obtain ⟨u, hu, _⟩ := exec_respondsOrWaits i { s with rsp := none }
    by_cases hin : u.inflight = none
    · rw [List.cons_append, execAll_cons _ hu hin]
      exact ih ((execAll_cons _ hu hin).symm.trans h)
    · obtain rfl := Host.Outcome.next.inj ((execAll_cons_waiting cs hu hin).symm.trans h)
      exact absurd ht hin

/-- RESET and any commands but INIT and RESET leave the closed form of the message those bring, whatever was pending before. -/
theorem execAll_reset_msgStateOf {cs : List Instr} {s : State} (hk : s.keyed = true) (ha : s.cipherAnswers = true)
    (hin : s.inflight = none) (hcs : ∀ i ∈ cs, i ≠ .init ∧ i ≠ .reset) :
    ∃ r, execAll (.reset :: cs) s = .next { s.withMsg (msgStateOf s.encrypt (messageBytes cs)) with rsp := r } := by
  rw [execAll_cons cs (exec_reset_of_keyed (s := { s with rsp := none }) hk) hin]
  exact messageStateClosedForm (State.respond _ .ok 0) cs hk ha hin (State.clearMessage_msg { s with rsp := none }) hcs

theorem execAll_final {s : State} (hk : s.keyed = true) (ha : s.cipherAnswers = true) (hin : s.inflight = none) :
    execAll [.final] s = .next { s with rsp := some ⟨.ok, s.encrypt (scratchBlock s.k1 s.k2 s.msg)⟩ } :=
  execAll_cons [] (exec_final_of_answers (s := { s with rsp := none }) hk ha) hin

/-- Settles O28: what precedes FINAL leaves the closed form of the message state, and the scratch block FINAL forms there is the
last block of the CMAC. -/
theorem tagIsTheCmacOfTheMessage : Obligations.TagIsTheCmacOfTheMessage := by
  intro s cs hk ha hin hcs
  obtain ⟨r, hmsg⟩ := execAll_reset_msgStateOf hk ha hin hcs
  rw [← encrypt_scratchBlock_msgStateOf, ← List.cons_append, execAll_append [.final] hmsg hin]
  exact execAll_final hk ha hin

end Sys2Proof.Machine
end

section
/-! SUPPORT. 43_reset_tagsize.md: the effect of RESET (R155), what of the past can reach a response after it (R156,
10_state.md R31), and TAGSIZE (R158). -/

namespace Sys2Proof.Machine

/-! ## RESET, TAGSIZE and the end of INIT -/

/-- RESET without an engine. -/
theorem exec_reset_of_not_keyed {s : State} (hk : s.keyed = false) : exec .reset s = .next (s.raise .errNotKeyed) := by
  rcases execReset_cases s with ⟨_, e⟩ | ⟨h, _⟩
  · exact e
  · simp [hk] at h

/-- Settles O29: on either value of KEYED, the state RESET leaves, field by field. -/
theorem resetClearsTheMessage : Obligations.ResetClearsTheMessage :=
  ⟨fun _ hk => exec_reset_of_keyed hk, fun _ hk => exec_reset_of_not_keyed hk⟩

theorem exec_tagsize (s : State) : exec .tagsize s = .next (s.respond .ok (zext 16)) := rfl

/-- Settles O31: the response is B = 16 as a block. -/
theorem tagSizeIsSixteen : Obligations.TagSizeIsSixteen := exec_tagsize

@[simp] theorem finishInit_inflight (s : State) : (finishInit s).inflight = s.inflight := rfl

/-! ## States no later response tells apart

K1 and K2 matter only while KEYED = 1: without an engine they are free values, which a failed INIT draws by a counter that two runs
need not share. -/

/-- The two states agree on all that a response can depend on: X, P, N, KEYED, the cipher, the command in flight, the response
there is, and the subkeys where there is an engine. -/
structure State.Alike (s s' : State) : Prop where
  msg : s.msg = s'.msg
  keyed : s.keyed = s'.keyed
  cipher : s.cipher = s'.cipher
  inflight : s.inflight = s'.inflight
  rsp : s.rsp = s'.rsp
  subkeys : s.keyed = true → s.k1 = s'.k1 ∧ s.k2 = s'.k2

namespace State.Alike

variable {s s' : State}

protected theorem withRsp (h : s.Alike s') (r : Option Response) : State.Alike { s with rsp := r } { s' with rsp := r } :=
  { h with rsp := rfl }

protected theorem respond (h : s.Alike s') (st : Status) (d : Block) : (s.respond st d).Alike (s'.respond st d) :=
  h.withRsp (some ⟨st, d⟩)

protected theorem withMsg (h : s.Alike s') (a : MsgState) : (s.withMsg a).Alike (s'.withMsg a) := { h with msg := rfl }

protected theorem withInflight (h : s.Alike s') (f : Option Inflight) :
    State.Alike { s with inflight := f } { s' with inflight := f } := { h with inflight := rfl }

/-- Whatever subkeys the two free draws give, there is no engine to use them. -/
protected theorem dropEngine (h : s.Alike s') : s.dropEngine.Alike s'.dropEngine :=
  { h with msg := rfl, keyed := rfl, subkeys := by simp }

theorem encrypt_eq (h : s.Alike s') : s.encrypt = s'.encrypt := congrArg Cipher.encrypt h.cipher

theorem cipherAnswers_eq (h : s.Alike s') : s.cipherAnswers = s'.cipherAnswers := by
  rw [State.cipherAnswers, State.cipherAnswers, h.cipher]

theorem finalRequest_eq (h : s.Alike s') (hk : s.keyed = true) : finalRequest s = finalRequest s' := by
  obtain ⟨hk1, hk2⟩ := h.subkeys hk
  rw [finalRequest, finalRequest, hk1, hk2, h.msg]

/-! ### The shared control operations -/

protected theorem ifKeyed (h : s.Alike s') {run : State → State} (hrun : s.keyed = true → (run s).Alike (run s')) :
    (s.ifKeyed run).Alike (s'.ifKeyed run) := by
  by_cases hk : s.keyed = true
  · rw [State.ifKeyed_of_keyed hk, State.ifKeyed_of_keyed (h.keyed ▸ hk)]
    exact hrun hk
  · have hnot : s.keyed = false := by simpa using hk
    rw [State.ifKeyed_of_not hnot, State.ifKeyed_of_not (h.keyed ▸ hnot)]
    exact h.respond _ _

/-- Both engines make the same request, and both are answered or both wait. -/
protected theorem request (h : s.Alike s') (i : Instr) {v v' : Block} (hv : v = v') {done : State → State}
    (hdone : (done s).Alike (done s')) : (s.request i v done).Alike (s'.request i v' done) := by
  subst hv
  cases ha : s.cipherAnswers with
  | true =>
    rw [State.request_of_answers ha, State.request_of_answers (h.cipherAnswers_eq ▸ ha)]
    exact hdone
  | false =>
    have hready : s.cipher.reqReady = s'.cipher.reqReady := congrArg Cipher.reqReady h.cipher
    rw [State.request_of_silent ha, State.request_of_silent (h.cipherAnswers_eq ▸ ha), hready]
    exact h.withInflight _

/-! ### The commands -/

/-- A finished INIT derives both subkeys anew from the cipher the engines share. -/
protected theorem finishInit (h : s.Alike s') : (finishInit s).Alike (finishInit s') where
  msg := by simp
  keyed := by simp
  cipher := by simpa using h.cipher
  inflight := by simpa using h.inflight
  rsp := by simp
  subkeys := by simp [h.encrypt_eq]

protected theorem finishUpdate (h : s.Alike s') (m : List Byte) : (finishUpdate m s).Alike (finishUpdate m s') := by
  rw [finishUpdate, finishUpdate, h.encrypt_eq, h.msg]
  exact (h.withMsg _).respond _ _

protected theorem finishFinal (h : s.Alike s') (hk : s.keyed = true) : (finishFinal s).Alike (finishFinal s') := by
  rw [finishFinal, finishFinal, h.encrypt_eq, h.finalRequest_eq hk]
  exact h.respond _ _

protected theorem execInit (h : s.Alike s') : ∃ t t', execInit s = .next t ∧ execInit s' = .next t' ∧ t.Alike t' := by
  refine ⟨_, _, rfl, rfl, ?_⟩
  rw [h.cipher]
  split
  · exact h.request .init rfl h.finishInit
  · exact h.dropEngine.respond _ _

protected theorem execUpdate (h : s.Alike s') (m : List Byte) :
    ∃ t t', execUpdate m s = .next t ∧ execUpdate m s' = .next t' ∧ t.Alike t' := by
  refine ⟨_, _, rfl, rfl, h.ifKeyed fun _ => ?_⟩
  rw [show s.n = s'.n from congrArg MsgState.n h.msg]
  split
  · exact h.request (.update m) (by rw [h.msg]) (h.finishUpdate m)
  · exact h.finishUpdate m

/-- Alike engines fare alike at every command. -/
protected theorem exec (h : s.Alike s') (i : Instr) : ∃ t t', exec i s = .next t ∧ exec i s' = .next t' ∧ t.Alike t' := by
  cases i with
  | init => exact h.execInit
  | update m => exact h.execUpdate m
  | final =>
    exact ⟨_, _, rfl, rfl, h.ifKeyed fun hk => h.request .final (h.finalRequest_eq hk) (h.finishFinal hk)⟩
  | reset => exact ⟨_, _, rfl, rfl, h.ifKeyed fun _ => (h.withMsg MsgState.empty).respond _ _⟩
  | tagsize => exact ⟨_, _, rfl, rfl, h.respond _ _⟩
  | cmp a b => exact ⟨_, _, rfl, rfl, h.respond _ _⟩

/-- Alike engines fare alike at every sequence of commands: they go through it together or wait at the same command. -/
protected theorem execAll (h : s.Alike s') (cs : List Instr) :
    ∃ t t', execAll cs s = .next t ∧ execAll cs s' = .next t' ∧ t.Alike t' := by
  induction cs generalizing s s' with
  | nil => exact ⟨s, s', rfl, rfl, h⟩
  | cons i cs ih =>
    obtain ⟨u, u', hu, hu', halike⟩ := (h.withRsp none).exec i
    by_cases hin : u.inflight = none
    · rw [execAll_cons cs hu hin, execAll_cons cs hu' (halike.inflight ▸ hin)]
      exact ih halike
    · exact ⟨u, u', execAll_cons_waiting cs hu hin, execAll_cons_waiting cs hu' (halike.inflight ▸ hin), halike⟩

end State.Alike

/-! ## RESET forgets the past -/

/-- RESET leaves two keyed, idle engines with the same subkeys and cipher alike, whatever message was pending in each. -/
theorem State.Alike.of_reset {s s' : State} (hkeyed : s.keyed = s'.keyed) (hk1 : s.k1 = s'.k1) (hk2 : s.k2 = s'.k2)
    (hcipher : s.cipher = s'.cipher) (hin : s.inflight = s'.inflight) :
    (s.clearMessage.respond .ok 0).Alike (s'.clearMessage.respond .ok 0) where
  msg := rfl
  keyed := hkeyed
  cipher := hcipher
  inflight := hin
  rsp := rfl
  subkeys _ := ⟨hk1, hk2⟩

/-- Settles O30: RESET leaves the two engines alike, and alike engines fare alike at the commands that follow. -/
theorem resetForgetsThePast : Obligations.ResetForgetsThePast := by
  intro s s' t t' cs hk hk' hk1 hk2 hcipher hin hin' ht ht'
  rw [execAll_cons cs (exec_reset_of_keyed (s := { s with rsp := none }) hk) hin] at ht
  rw [execAll_cons cs (exec_reset_of_keyed (s := { s' with rsp := none }) hk') hin'] at ht'
  have afterReset := State.Alike.of_reset (s := { s with rsp := none }) (s' := { s' with rsp := none })
    (hk.trans hk'.symm) hk1 hk2 hcipher (hin.trans hin'.symm)
  obtain ⟨u, u', hu, hu', halike⟩ := afterReset.execAll cs
  obtain rfl := Host.Outcome.next.inj (hu.symm.trans ht)
  obtain rfl := Host.Outcome.next.inj (hu'.symm.trans ht')
  exact ⟨halike.rsp, halike.inflight⟩

end Sys2Proof.Machine
end

section
/-! SUPPORT. 44_compare.md: the comparator decides equality (R166, R167); and the pseudo-command VERIFY (30_encoding.md R78). -/

namespace Sys2Proof.Machine

/-! ## The comparator -/

/-- The OR of byte-wise xors is zero only where every pair of bytes agrees, so operands of one length are then equal. -/
theorem orOfXors_eq_zero_iff {a b : List Byte} (acc : Byte) (hlen : a.length = b.length) :
    orOfXors acc a b = 0 ↔ acc = 0 ∧ a = b := by
  induction a generalizing acc b with
  | nil =>
    obtain rfl := List.length_eq_zero_iff.mp hlen.symm
    simp [orOfXors]
  | cons x xs ih =>
    cases b with
    | nil => simp at hlen
    | cons y ys =>
      have hbytes : acc ||| (x ^^^ y) = 0 ↔ acc = 0 ∧ x = y :=
        BitVec.or_eq_zero_iff.trans (and_congr_right' BitVec.xor_eq_zero_iff)
      rw [orOfXors, ih _ (Nat.succ.inj hlen), hbytes, List.cons.injEq, and_assoc]

theorem ctEqual_iff {a b : List Byte} : ctEqual a b = true ↔ a = b := by
  by_cases hlen : a.length = b.length
  · have hbytes := orOfXors_eq_zero_iff 0 hlen
    simpa [ctEqual, hlen] using hbytes
  · have hne : a ≠ b := fun h => hlen (congrArg List.length h)
    simp [ctEqual, hlen, hne]

/-- Settles O32: the comparator's answer is equality of the operands, and the response is all that CMP writes. -/
theorem compareIsEquality : Obligations.CompareIsEquality := by
  intro a b s
  show execCmp a b s = _
  simp only [execCmp, ctEqual_iff]
  rfl

/-! ## VERIFY -/

/-- Enough iterations cut the whole string: the pieces, one after another, are the string. -/
theorem flatten_pieces {fuel : Nat} {m : List Byte} (h : m.length ≤ fuel) : (pieces fuel m).flatten = m := by
  induction fuel generalizing m with
  | zero => exact (List.length_eq_zero_iff.mp (Nat.le_zero.mp h)).symm
  | succ fuel ih =>
    rw [pieces]
    split
    next hempty => exact (List.length_eq_zero_iff.mp hempty).symm
    next hne =>
      have hrest : (m.drop Config.blockSize).length ≤ fuel := by
        rw [List.length_drop, blockSize_eq]
        omega
      rw [List.flatten_cons, ih hrest, List.take_append_drop]

/-- `UPDATE*` brings the message it cuts. -/
theorem messageBytes_updateStar (m : List Byte) : messageBytes (updateStar m) = m := by
  rw [messageBytes, updateStar, List.flatMap_map]
  exact List.flatMap_id.trans (flatten_pieces (Nat.le_refl _))

theorem ne_init_and_ne_reset_of_mem_updateStar {m : List Byte} {i : Instr} (hi : i ∈ updateStar m) :
    i ≠ .init ∧ i ≠ .reset := by
  obtain ⟨q, _, rfl⟩ := List.mem_map.mp hi
  exact ⟨Instr.noConfusion, Instr.noConfusion⟩

/-- MAC on a keyed, idle engine whose cipher answers: the response is the CMAC (30_encoding.md R78, 42_final.md R147). -/
theorem execAll_macCommands {s : State} (m : List Byte) (hk : s.keyed = true) (ha : s.cipherAnswers = true)
    (hin : s.inflight = none) :
    execAll (macCommands m) s = .next
      { s.withMsg (msgStateOf s.encrypt m) with rsp := some ⟨.ok, cmac s.encrypt s.k1 s.k2 m⟩ } := by
  have htag := tagIsTheCmacOfTheMessage s (updateStar m) hk ha hin fun _ hi => ne_init_and_ne_reset_of_mem_updateStar hi
  rwa [messageBytes_updateStar] at htag

/-- After a MAC that answered, VERIFY is its CMP of the returned tag with the received one. -/
theorem execVerify_of_mac {m : List Byte} {s t : State} {r : Response} (tag : List Byte)
    (ht : execAll (macCommands m) s = .next t) (hr : t.rsp = some r) :
    execVerify m tag s = issueSpelled (.cmp (laneBytes r.data 16) tag) { t with rsp := none } := by
  simp [execVerify, ht, hr]

/-- The port carries VERIFY's CMP exactly when the received tag fits a lane group (30_encoding.md R73). -/
theorem cmp_laneBytes_wf_iff (v : Block) (tag : List Byte) :
    (Instr.cmp (laneBytes v 16) tag).wf = true ↔ tag.length ≤ 16 := by
  simp [Instr.wf]

/-- Settles O34: MAC answers the CMAC, and the CMP that follows is executed if the received tag fits and illegal if not. -/
theorem verifyAcceptsExactlyTheTag : Obligations.VerifyAcceptsExactlyTheTag := by
  intro s m tag hk ha hin
  rw [execVerify_of_mac tag (execAll_macCommands m hk ha hin) rfl]
  rcases issueSpelled_cases (.cmp (laneBytes (cmac s.encrypt s.k1 s.k2 m) 16) tag) _ with ⟨hwf, e⟩ | ⟨hwf, e⟩
  · have hfits : tag.length ≤ 16 := (cmp_laneBytes_wf_iff _ tag).mp hwf
    refine ⟨_, e.trans (compareIsEquality _ _ _), fun _ => ?_, fun hlong => absurd hfits (Nat.not_le.mpr hlong)⟩
    simp only [eq_comm (a := tag)]
  · have hlong : ¬ tag.length ≤ 16 := fun hfits => by simp [(cmp_laneBytes_wf_iff _ tag).mpr hfits] at hwf
    exact ⟨_, e, fun hfits => absurd hfits hlong, fun _ _ => rfl⟩

end Sys2Proof.Machine
end

section
/-! SUPPORT. 60_exceptions.md: nothing stops (R180), the two refusals ERR_NOT_KEYED (R183) and ERR_ILLEGAL (R184), and the idle
engine (R195). -/

namespace Sys2Proof.Machine

/-! ## There are no traps (R180) -/

/-- Settles O15: each thing a step can be goes on, a command's execution included. -/
theorem nothingEverStops : Obligations.NothingEverStops := by
  have exec_next : ∀ i s, ∃ t, exec i s = .next t := fun i s => by
    obtain ⟨t, ht, _⟩ := exec_respondsOrWaits i s
    exact ⟨t, ht⟩
  refine ⟨fun s => ?_, exec_next⟩
  rcases step_cases s with
    ⟨_, _, e⟩ | ⟨_, ⟨_, _, e⟩ | ⟨_, i, _, _, _, _, e⟩ | ⟨_, _, _, _, _, _, e⟩ | ⟨_, _, e⟩⟩
  · exact ⟨_, e⟩
  · exact ⟨_, e⟩
  · rw [e]
    exact exec_next i _
  · exact ⟨_, e⟩
  · exact ⟨_, e⟩

/-! ## ERR_NOT_KEYED (R183) -/

theorem exec_update_of_not_keyed {s : State} (m : List Byte) (hk : s.keyed = false) :
    exec (.update m) s = .next (s.raise .errNotKeyed) := by
  rcases execUpdate_cases m s with ⟨_, e⟩ | ⟨h, _⟩ | ⟨h, _⟩
  · exact e
  · simp [hk] at h
  · simp [hk] at h

theorem exec_final_of_not_keyed {s : State} (hk : s.keyed = false) : exec .final s = .next (s.raise .errNotKeyed) := by
  rcases execFinal_cases s with ⟨_, e⟩ | ⟨h, _⟩ | ⟨h, _⟩
  · exact e
  · simp [hk] at h
  · simp [hk] at h

/-- INIT answers OK or ERR_KEY, or nothing yet. -/
theorem exec_init_rsp {s t : State} (h : exec .init s = .next t) :
    t.rsp = some ⟨.errKey, 0⟩ ∨ t.rsp = some ⟨.ok, 0⟩ ∨ t.rsp = s.rsp := by
  rcases exec_init_cases h with ⟨_, rfl⟩ | ⟨_, rfl⟩ | ⟨_, f, rfl⟩
  · exact .inl rfl
  · exact .inr (.inl rfl)
  · exact .inr (.inr rfl)

/-- Settles O35: the refusal command by command, and the responses the other three commands can give. -/
theorem unkeyedEngineRefuses : Obligations.UnkeyedEngineRefuses := by
  refine ⟨fun s i hk hi => ?_, fun s t i d hp hi h => ?_⟩
  · rcases hi with ⟨m, rfl⟩ | rfl | rfl
    · exact exec_update_of_not_keyed m hk
    · exact exec_final_of_not_keyed hk
    · exact exec_reset_of_not_keyed hk
  · rcases hi with rfl | rfl | ⟨a, b, rfl⟩
    · rcases exec_init_rsp h with e | e | e <;> simp [e, hp]
    · obtain rfl := Host.Outcome.next.inj ((exec_tagsize s).symm.trans h)
      simp
    · obtain rfl := Host.Outcome.next.inj ((compareIsEquality a b s).symm.trans h)
      simp

/-! ## ERR_ILLEGAL (R184) -/

/-- The fields of a header that decodes, as numbers: what R75 calls illegal is everything else. -/
theorem decode_ok_fields {c : Command} {i : Instr} (h : decode c = .ok i) :
    headerRsv c.hdr = 0 ∧
    ((((headerOp c.hdr).toNat = 1 ∨ (headerOp c.hdr).toNat = 3 ∨ (headerOp c.hdr).toNat = 4 ∨ (headerOp c.hdr).toNat = 5) ∧
        (headerLen2 c.hdr).toNat = 0 ∧ (headerLen c.hdr).toNat = 0) ∨
     ((headerOp c.hdr).toNat = 2 ∧ (headerLen2 c.hdr).toNat = 0 ∧ (headerLen c.hdr).toNat ≤ 16) ∨
     ((headerOp c.hdr).toNat = 6 ∧ (headerLen2 c.hdr).toNat ≤ 16 ∧ (headerLen c.hdr).toNat ≤ 16)) := by
  obtain ⟨hrsv, hcase⟩ := decode_ok_cases h
  refine ⟨hrsv, ?_⟩
  rcases hcase with ⟨hop, hlen2, hlen, _⟩ | ⟨hop, hlen2, hlen, _⟩ | ⟨hop, hlen2, hlen, _⟩ | ⟨hop, hlen2, hlen, _⟩ |
    ⟨hop, hlen2, hlen, _⟩ | ⟨hop, hlen, hlen2, _⟩
  all_goals simp [hop, hlen2, hlen]

/-- A ready engine answers ERR_ILLEGAL to a presented command that does not decode. -/
theorem step_of_presented_illegal {s : State} {c : Command} (hready : s.cmdReady = true) (hcmd : s.cmd = some c)
    (hrst : s.inputs.head? ≠ some .rst) (hdec : ∀ i, decode c ≠ .ok i) :
    step s = .next ({ s with cmd := none }.raise .errIllegal) := by
  obtain ⟨hf, hp⟩ := State.cmdReady_eq_true_iff.mp hready
  rcases step_cases s with ⟨rest, h, _⟩ | ⟨_, ⟨f, h, _⟩ | ⟨c', i, _, _, hc, hd, _⟩ | ⟨_, _, _, _, _, _, e⟩ | ⟨_, h, _⟩⟩
  · simp [h] at hrst
  · simp [hf] at h
  · obtain rfl : c = c' := by simpa [hcmd] using hc
    exact absurd hd (hdec i)
  · exact e
  · simp [hp, hcmd] at h

/-- Settles O12: no header that R75 calls illegal decodes, by the fields of those that do. -/
theorem illegalHeaderAnswersErrIllegal : Obligations.IllegalHeaderAnswersErrIllegal := by
  intro s c hcmd hready hrst hillegal
  refine step_of_presented_illegal hready hcmd hrst fun i hdec => ?_
  obtain ⟨hrsv, hfields⟩ := decode_ok_fields hdec
  simp only [headerRsv, headerOp, headerLen, headerLen2] at hrsv hfields
  simp only [hrsv, ne_eq, not_true_eq_false, false_or] at hillegal
  omega

/-! ## The idle engine (R195) -/

/-- With nothing in flight and nothing presented the engine leaves the turn to the outside world, hardware reset not being
next. -/
theorem step_of_no_command {s : State} (hf : s.inflight = none) (hcmd : s.cmd = none) (hrst : s.inputs.head? ≠ some .rst) :
    step s = .next s.nextInput := by
  rcases step_cases s with ⟨rest, hr, _⟩ | ⟨_, ⟨_, h, _⟩ | ⟨_, _, _, _, h, _⟩ | ⟨_, _, _, _, h, _⟩ | ⟨_, _, e⟩⟩
  · simp [hr] at hrst
  · simp [hf] at h
  · simp [hcmd] at h
  · simp [hcmd] at h
  · exact e

/-- Only hardware reset, of all the outside world does, draws free values. -/
theorem State.nextInput_draws {s : State} (hrst : s.inputs.head? ≠ some .rst) : s.nextInput.draws = s.draws := by
  rcases s.nextInput_cases with
    ⟨_, e⟩ | ⟨_, _, _, e⟩ | ⟨_, _, e⟩ | ⟨_, _, _, e⟩ | ⟨rest, hr, _⟩
  iterate 4 · rw [e]
  · simp [hr] at hrst

/-- Settles O49: the step is the outside world's, which hardware reset apart writes no register and gives no response. -/
theorem idleEngineHoldsItsRegisters : Obligations.IdleEngineHoldsItsRegisters := by
  intro s hf hp hcmd hrst
  obtain ⟨hin, hk1, hk2, hmsg, hkeyed⟩ := State.nextInput_keeps_engine hrst
  rw [hf] at hin
  have hrsp : s.nextInput.rsp = none := s.nextInput_rsp.elim (fun e => e.trans hp) And.right
  exact ⟨_, step_of_no_command hf hcmd hrst, State.cmdReady_eq_true_iff.mpr ⟨hin, hrsp⟩,
    by simp [State.ciphReqValid, hin], hk1, hk2, hmsg, hkeyed, State.nextInput_draws hrst⟩

end Sys2Proof.Machine
end

section
/-! SUPPORT. 30_encoding.md: the round trip between commands and instructions (R70 to R73), and the lanes a command does not use
(R71). -/

namespace Sys2Proof

open Machine

/-! ## Lane groups -/

theorem laneBytes_congr {v w : Block} {len : Nat} (h : ∀ i < len, byteOf v i = byteOf w i) :
    laneBytes v len = laneBytes w len :=
  List.map_congr_left fun i hi => h i (List.mem_range.mp hi)

/-- A length that a lane group can carry survives the length field of a header. -/
theorem toNat_ofNat_length {bs : List Byte} (h : bs.length ≤ 16) : (BitVec.ofNat 8 bs.length).toNat = bs.length := by
  rw [BitVec.toNat_ofNat]
  omega

/-! ## Encode, then decode -/

/-- The converse of `decode_update_ok`. -/
theorem decode_eq_update {c : Command} (hrsv : headerRsv c.hdr = 0) (hop : headerOp c.hdr = 2)
    (hlen2 : headerLen2 c.hdr = 0) (hlen : (headerLen c.hdr).toNat ≤ 16) :
    decode c = .ok (.update (laneBytes c.a (headerLen c.hdr).toNat)) := by
  simp [decode, decodeUpdate, hrsv, hop, hlen2, Nat.not_lt.mpr hlen]

/-- The converse of `decode_cmp_ok`. -/
theorem decode_eq_cmp {c : Command} (hrsv : headerRsv c.hdr = 0) (hop : headerOp c.hdr = 6)
    (hlen : (headerLen c.hdr).toNat ≤ 16) (hlen2 : (headerLen2 c.hdr).toNat ≤ 16) :
    decode c = .ok (.cmp (laneBytes c.a (headerLen c.hdr).toNat) (laneBytes c.b (headerLen2 c.hdr).toNat)) := by
  simp [decode, decodeCmp, hrsv, hop, Nat.not_lt.mpr hlen, Nat.not_lt.mpr hlen2]

theorem decode_encode_update {m : List Byte} (hm : m.length ≤ 16) : decode (encode (.update m)) = .ok (.update m) := by
  have hlen : (headerLen (encode (.update m)).hdr).toNat = m.length := by
    rw [encode, headerLen_header, toNat_ofNat_length hm]
  rw [decode_eq_update (by simp [encode]) (by simp [encode]) (by simp [encode]) (hlen ▸ hm), hlen]
  exact congrArg (fun bs => Except.ok (Instr.update bs)) (laneBytes_blockOf m hm)

theorem decode_encode_cmp {a b : List Byte} (ha : a.length ≤ 16) (hb : b.length ≤ 16) :
    decode (encode (.cmp a b)) = .ok (.cmp a b) := by
  have hlen : (headerLen (encode (.cmp a b)).hdr).toNat = a.length := by
    rw [encode, headerLen_header, toNat_ofNat_length ha]
  have hlen2 : (headerLen2 (encode (.cmp a b)).hdr).toNat = b.length := by
    rw [encode, headerLen2_header, toNat_ofNat_length hb]
  rw [decode_eq_cmp (by simp [encode]) (by simp [encode]) (hlen ▸ ha) (hlen2 ▸ hb), hlen, hlen2]
  exact congrArg₂ (fun bs bs' => Except.ok (Instr.cmp bs bs')) (laneBytes_blockOf a ha) (laneBytes_blockOf b hb)

/-- Settles O2: a plain command is its header alone; the operands of UPDATE and CMP fit their lanes and length fields. -/
theorem decodeOfEncode : Obligations.DecodeOfEncode := by
  intro i hi
  cases i with
  | init | final | reset | tagsize => exact (decode_eq_ok_iff_of_no_operand (by simp)).mpr rfl
  | update m => exact decode_encode_update (by simpa [Instr.wf] using hi)
  | cmp a b =>
    obtain ⟨ha, hb⟩ : a.length ≤ 16 ∧ b.length ≤ 16 := by simpa [Instr.wf] using hi
    exact decode_encode_cmp ha hb

/-! ## Decode, then encode -/

/-- Settles O3: command by command, the encoder writes the fields `decode_ok_cases` names, and those are the header. -/
theorem encodeOfDecodeKeepsHeader : Obligations.EncodeOfDecodeKeepsHeader := by
  intro c i h
  obtain ⟨hrsv, hcase⟩ := decode_ok_cases h
  rw [← header_ext hrsv]
  rcases hcase with ⟨hop, hlen2, hlen, rfl⟩ | ⟨hop, hlen2, hlen, rfl⟩ | ⟨hop, hlen2, hlen, rfl⟩ |
    ⟨hop, hlen2, hlen, rfl⟩ | ⟨hop, hlen2, hlen, rfl⟩ | ⟨hop, hlen, hlen2, rfl⟩
  all_goals simp [Instr.wf, encode, hop, hlen, hlen2]

/-! ## Unused lanes -/

/-- Settles O6: only UPDATE and CMP read lanes, and only those below their lengths. -/
theorem unusedLanesAreIgnored : Obligations.UnusedLanesAreIgnored := by
  intro c d hhdr ha hb
  have hlanesA : laneBytes c.a (headerLen c.hdr).toNat = laneBytes d.a (headerLen c.hdr).toNat := laneBytes_congr ha
  have hlanesB : laneBytes c.b (headerLen2 c.hdr).toNat = laneBytes d.b (headerLen2 c.hdr).toNat := laneBytes_congr hb
  have hupdate : decodeUpdate c = decodeUpdate d := by rw [decodeUpdate, decodeUpdate, ← hhdr, hlanesA]
  have hcmp : decodeCmp c = decodeCmp d := by rw [decodeCmp, decodeCmp, ← hhdr, hlanesA, hlanesB]
  rw [decode, decode, hupdate, hcmp, hhdr]

/-- Settles O1: six closed facts of the decoder, one header of each command. -/
theorem writtenHeadersDecode : Obligations.WrittenHeadersDecode :=
  ⟨by decide, by decide, by decide, by decide, by decide, by decide⟩

end Sys2Proof
end

section
/-! SUPPORT. How a step meets the ports (20_memory.md R56, R61; 30_encoding.md R77), hardware reset (70_reset_and_hazards.md R210),
and what writes the subkeys (10_state.md R35). -/

namespace Sys2Proof.Machine

/-! ## Presented commands -/

/-- Settles O9: a ready engine has nothing in flight and no response, so the presented command has the turn. -/
theorem stepRunsThePresentedCommand : Obligations.StepRunsThePresentedCommand := by
  intro s c i hcmd hready hrst hdec
  obtain ⟨hin, hrsp⟩ := State.cmdReady_eq_true_iff.mp hready
  exact step_of_presented hin hrsp hcmd hrst hdec

theorem State.nextInput_of_drive {s : State} {c : Option Command} {rest : List Input} (h : s.inputs = .drive c :: rest) :
    s.nextInput = { s with inputs := rest, cmd := c } := by
  simp [State.nextInput, State.applyInput, h]

theorem State.nextInput_of_take {s : State} {rest : List Input} (h : s.inputs = .take :: rest) :
    s.nextInput = { s with inputs := rest, rsp := none } := by
  simp [State.nextInput, State.applyInput, h]

/-- Two steps of the core from a state whose first step is known; nothing stops the second. -/
theorem run_two_of_step {s t : State} (h : step s = .next t) : Host.Core.run core 2 s = step t := by
  have hcore : core.step s = .next t := h
  obtain ⟨u, hu⟩ := nothingEverStops.1 t
  have hcore' : core.step t = .next u := hu
  simp only [Host.Core.run, hcore, hcore']
  exact hu.symm

/-- Settles O11: the first step drives the encoded command onto the idle port, the second decodes it to the same command. -/
theorem scriptLineIsExecuted : Obligations.ScriptLineIsExecuted := by
  intro s i rest hwf hcmd hready hinputs
  obtain ⟨hin, hrsp⟩ := State.cmdReady_eq_true_iff.mp hready
  have hdrive : s.inputs = .drive (some (encode i)) :: .take :: rest := hinputs
  have presents : step s = .next { s with inputs := .take :: rest, cmd := some (encode i) } := by
    rw [step_of_no_command hin hcmd (by simp [hdrive]), State.nextInput_of_drive hdrive]
  have executes : step { s with inputs := .take :: rest, cmd := some (encode i) } =
      exec i { s with inputs := .take :: rest, cmd := none } :=
    step_of_presented (s := { s with inputs := _, cmd := _ }) hin hrsp rfl (by simp) (decodeOfEncode i hwf)
  rw [← hcmd] at executes
  exact (run_two_of_step presents).trans executes

/-! ## Responses and hardware reset -/

/-- Settles O48: the turn is the outside world's, which clears the response and nothing else. -/
theorem takingTheResponseReadiesThePort : Obligations.TakingTheResponseReadiesThePort := by
  intro s r rest hrsp hin htake
  refine ⟨?_, State.cmdReady_eq_true_iff.mpr ⟨hin, rfl⟩⟩
  rw [step_of_response hin (by simp [hrsp]) (by simp [htake]), State.nextInput_of_take htake]

/-- Settles O13: the step is hardware reset whatever else the state holds, and these are the fields it leaves. -/
theorem hardwareResetPreemptsEverything : Obligations.HardwareResetPreemptsEverything :=
  fun _ _ hrst => step_of_rst hrst

/-- Settles O14: the fields of the literal state. -/
theorem resetStateValues : Obligations.ResetStateValues :=
  ⟨rfl, rfl, rfl, rfl, rfl, rfl, rfl, rfl⟩

/-! ## Subkeys -/

/-- `t` has the subkeys, KEYED and the draw counter of `s`. -/
def SameEngine (s t : State) : Prop := t.k1 = s.k1 ∧ t.k2 = s.k2 ∧ t.draws = s.draws ∧ t.keyed = s.keyed

theorem finishCommand_sameEngine {i : Instr} (hi : i ≠ .init) (s : State) : SameEngine s (finishCommand i s) := by
  cases i with
  | init => exact absurd rfl hi
  | update m | final | reset | tagsize | cmp a b => exact ⟨rfl, rfl, rfl, rfl⟩

theorem State.nextInput_sameEngine {s : State} (hrst : s.inputs.head? ≠ some .rst) : SameEngine s s.nextInput := by
  obtain ⟨_, hk1, hk2, _, hkeyed⟩ := State.nextInput_keeps_engine hrst
  exact ⟨hk1, hk2, State.nextInput_draws hrst, hkeyed⟩

theorem serveCipher_sameEngine {f : Inflight} {s : State} (hf : f.cmd ≠ .init) (hrst : s.inputs.head? ≠ some .rst) :
    SameEngine s (serveCipher f s) := by
  rcases serveCipher_cases f s with ⟨_, _, e⟩ | ⟨_, _, _, e⟩ | ⟨_, e⟩ <;> rw [e]
  · exact finishCommand_sameEngine hf { s with inflight := none }
  · exact ⟨rfl, rfl, rfl, rfl⟩
  · exact State.nextInput_sameEngine hrst

/-- Settles O45: of the turns a step can be, only hardware reset and INIT, accepted or in flight, write the subkeys. -/
theorem subkeysAreFixedWithinALifetime : Obligations.SubkeysAreFixedWithinALifetime := by
  intro s t h hrst hcmd hflight
  rcases step_cases s with
    ⟨rest, hr, _⟩ | ⟨_, ⟨f, hf, e⟩ | ⟨c, i, _, _, hc, hd, e⟩ | ⟨_, _, _, _, _, _, e⟩ | ⟨_, _, e⟩⟩
  · simp [hr] at hrst
  · obtain rfl := Host.Outcome.next.inj (e.symm.trans h)
    exact serveCipher_sameEngine (hflight f hf) hrst
  · have hi : i ≠ .init := fun hi => hcmd c hc (hi ▸ hd)
    obtain ⟨hk1, hk2, hkeyed, hdraws⟩ := exec_keeps_engine hi (e.symm.trans h)
    exact ⟨hk1, hk2, hdraws, hkeyed⟩
  · obtain rfl := Host.Outcome.next.inj (e.symm.trans h)
    exact ⟨rfl, rfl, rfl, rfl⟩
  · obtain rfl := Host.Outcome.next.inj (e.symm.trans h)
    exact State.nextInput_sameEngine hrst

end Sys2Proof.Machine
end

section
/-! SUPPORT. The whole effect of UPDATE on at most one block (41_update.md R122, R124) and of FINAL (42_final.md R142, R143, R146),
byte by byte, and the pieces of UPDATE* (30_encoding.md R78). -/

namespace Sys2Proof.Machine

/-! ## UPDATE -/

theorem flushes_eq_false_iff {n : BitVec 5} {m : List Byte} : flushes n m = false ↔ n.toNat + m.length ≤ 16 := by
  rw [← Bool.not_eq_true, flushes_iff, Nat.not_lt]

/-- Bytes that fit are kept (R124). -/
theorem absorb_of_fits (E : Block → Block) {a : MsgState} {m : List Byte} (h : a.n.toNat + m.length ≤ 16) :
    absorb E a m = keepTail a m := by
  rw [absorb_eq_foldl E a m (by omega), foldl_absorbByte_fits E m a h]

/-- What is left of a beat of at most B bytes after it completed P is less than a block (R122, R124). -/
theorem absorb_of_overfills (E : Block → Block) {a : MsgState} {m : List Byte} (hm : m.length ≤ 16)
    (h : 16 < a.n.toNat + m.length) :
    absorb E a m = keepTail ⟨E (flushBlock a m), 0, 0⟩ (m.drop (room a.n)) := by
  have hrest : (m.drop (room a.n)).length ≤ 16 := by
    rw [List.length_drop]
    omega
  simp only [absorb, (flushes_iff a.n m).mpr h, if_true, flushWhole_short E _ _ _ hrest]

/-- A copy of bytes, those beyond the end of the block dropped, in the spelling of the statements. -/
theorem byteOf_copyBytes_eq_ite (v : Block) (off i : Nat) (bs : List Byte) (hi : i < 16) :
    byteOf (copyBytes v off bs) i =
      if off ≤ i ∧ i < off + bs.length then bs.getD (i - off) 0 else byteOf v i := by
  rw [byteOf_copyBytes _ _ _ _ hi, List.getD_eq_getElem?_getD]
  by_cases hin : off ≤ i ∧ i < off + bs.length
  · rw [if_pos hin.1, if_pos hin, List.getElem?_eq_getElem (by omega)]
    rfl
  · rw [if_neg hin]
    split
    · rw [List.getElem?_eq_none (by omega)]
      rfl
    · rfl

/-- P completed by the first bytes of a beat that overfills it. -/
theorem byteOf_copyBytes_take_room {p : Block} {n : BitVec 5} {m : List Byte} (h : 16 < n.toNat + m.length) {i : Nat}
    (hi : i < 16) :
    byteOf (copyBytes p n.toNat (m.take (room n))) i =
      if i < n.toNat then byteOf p i else m.getD (i - n.toNat) 0 := by
  rw [byteOf_copyBytes_eq_ite _ _ _ _ hi, List.length_take, room, blockSize_eq]
  by_cases hlt : i < n.toNat
  · rw [if_neg (by omega), if_pos hlt]
  · rw [if_pos (by omega), if_neg hlt, List.getD_eq_getElem?_getD, List.getD_eq_getElem?_getD,
      List.getElem?_take_of_lt (by omega)]

/-- Settles O19: the beat is not flushed, so the cipher is not asked; P is a copy of the bytes behind the pending ones. -/
theorem updateWithinTheBlockKeepsBytesPending : Obligations.UpdateWithinTheBlockKeepsBytesPending := by
  intro s m hk hfits
  refine ⟨copyBytes s.p s.n.toNat m, ?_, fun i hi => byteOf_copyBytes_eq_ite _ _ _ _ hi⟩
  rcases execUpdate_cases m s with ⟨hnot, _⟩ | ⟨_, _, e⟩ | ⟨_, hf, _, _⟩
  · simp [hk] at hnot
  · refine e.trans ?_
    rw [finishUpdate_eq, absorb_of_fits s.encrypt (a := s.msg) hfits]
    rfl
  · simp [flushes_eq_false_iff.mpr hfits] at hf

/-- Settles O20: the beat completes P, which is flushed, and its rest is copied into a zeroed block. -/
theorem updateBeyondTheBlockFlushesIt : Obligations.UpdateBeyondTheBlockFlushesIt := by
  intro s m hk ha hn hm hover
  have hrest : (m.drop (room s.n)).length = s.n.toNat + m.length - 16 := by
    rw [List.length_drop, room, blockSize_eq]
    omega
  refine ⟨copyBytes s.p s.n.toNat (m.take (room s.n)), copyBytes 0 0 (m.drop (room s.n)), ?_,
    fun i hi => byteOf_copyBytes_take_room hover hi, fun i hi => ?_⟩
  · rw [exec_update_of_answers m hk ha, finishUpdate_eq, absorb_of_overfills s.encrypt (a := s.msg) hm hover, ← hrest,
      ← Nat.zero_add (m.drop (room s.n)).length]
    rfl
  · rw [byteOf_copyBytes_eq_ite _ _ _ _ hi, hrest, List.getD_eq_getElem?_getD, List.getD_eq_getElem?_getD,
      List.getElem?_drop, room, blockSize_eq]
    simp

/-! ## FINAL -/

/-- The whole state a finished FINAL leaves (R144, R145): the response, every other field as it was. -/
theorem finishFinal_eq (s : State) :
    finishFinal s = { s with rsp := some ⟨.ok, s.encrypt (scratchBlock s.k1 s.k2 s.msg)⟩ } := rfl

theorem scratchBlock_of_full (k1 k2 : Block) {a : MsgState} (h : a.n = 16) :
    scratchBlock k1 k2 a = a.p ^^^ a.x ^^^ k1 := by
  simp [scratchBlock, h]

/-- The padding branch of the scratch block (R143). -/
theorem byteOf_scratchBlock_of_lt (k1 k2 : Block) {a : MsgState} (h : a.n.toNat < 16) {i : Nat} (hi : i < 16) :
    byteOf (scratchBlock k1 k2 a) i =
      byteOf a.p i ^^^ byteOf a.x i ^^^ byteOf k2 i ^^^ (if i = a.n.toNat then 0x80 else 0) := by
  have hne : a.n.toNat ≠ 16 := Nat.ne_of_lt h
  simp only [scratchBlock, blockSize_eq, if_neg hne]
  rw [byteOf_setByte_xor _ _ _ _ h hi, byteOf_xor, byteOf_xor]

theorem byteOf_padding_zero : ∀ i < 16, byteOf 0x80000000000000000000000000000000 i = if i = 0 then 0x80 else 0 := by
  decide

/-- Of the empty message only K2 and the padding byte are left (R146). -/
theorem scratchBlock_empty (k1 k2 : Block) :
    scratchBlock k1 k2 MsgState.empty = k2 ^^^ 0x80000000000000000000000000000000 := by
  apply block_ext
  intro i hi
  rw [byteOf_scratchBlock_of_lt k1 k2 (by simp) hi, byteOf_xor, byteOf_padding_zero i hi]
  simp

/-- Settles O24: FINAL answers E of the scratch block, whose full branch is the one with K1. -/
theorem finalOfACompleteBlock : Obligations.FinalOfACompleteBlock := by
  intro s hk ha hn
  rw [exec_final_of_answers hk ha, finishFinal_eq, scratchBlock_of_full s.k1 s.k2 (a := s.msg) hn]
  rfl

/-- Settles O25: the scratch block of the padding branch, byte by byte. -/
theorem finalOfAnIncompleteBlock : Obligations.FinalOfAnIncompleteBlock := fun s hk ha hn =>
  ⟨scratchBlock s.k1 s.k2 s.msg, exec_final_of_answers hk ha,
    fun _ hi => byteOf_scratchBlock_of_lt s.k1 s.k2 (a := s.msg) hn hi⟩

/-- Settles O27: the message state is the empty one, whose scratch block is K2 with the padding byte. -/
theorem finalOfTheEmptyMessage : Obligations.FinalOfTheEmptyMessage := by
  intro s hk ha hx hp hn
  have hempty : s.msg = MsgState.empty := by rw [State.msg, hx, hp, hn]; rfl
  rw [exec_final_of_answers hk ha, finishFinal_eq, hempty, scratchBlock_empty]

/-! ## UPDATE* -/

theorem pieces_length {fuel : Nat} {m q : List Byte} (hq : q ∈ pieces fuel m) : 1 ≤ q.length ∧ q.length ≤ 16 := by
  induction fuel generalizing m with
  | zero => simp [pieces] at hq
  | succ fuel ih =>
    rw [pieces] at hq
    split at hq
    · simp at hq
    · rcases List.mem_cons.mp hq with rfl | hrest
      · rw [List.length_take, blockSize_eq]
        omega
      · exact ih hrest

/-- A piece that another one follows is a whole block. -/
theorem pieces_dropLast_length {fuel : Nat} {m q : List Byte} (hq : q ∈ (pieces fuel m).dropLast) : q.length = 16 := by
  induction fuel generalizing m with
  | zero => simp [pieces] at hq
  | succ fuel ih =>
    rw [pieces] at hq
    split at hq
    · simp at hq
    · by_cases hrest : pieces fuel (m.drop Config.blockSize) = []
      · simp [hrest] at hq
      · rw [List.dropLast_cons_of_ne_nil hrest] at hq
        rcases List.mem_cons.mp hq with rfl | hq
        · have hmore : 16 < m.length := by
            by_contra hshort
            have hnil : m.drop Config.blockSize = [] := List.drop_eq_nil_of_le (Nat.not_lt.mp hshort)
            cases fuel <;> simp [pieces, hnil] at hrest
          rw [List.length_take, blockSize_eq]
          omega
        · exact ih hq

/-- Settles O33: the pieces are those `UPDATE*` is defined by, and |m| iterations cut all of m. -/
theorem updateStarCutsIntoBlocks : Obligations.UpdateStarCutsIntoBlocks := fun m =>
  ⟨pieces m.length m, rfl, flatten_pieces (Nat.le_refl _), fun _ => pieces_dropLast_length, fun _ => pieces_length⟩

end Sys2Proof.Machine
end

section
/-! SUPPORT. The invariant of 10_state.md R30 with proper ports: it holds after hardware reset and every step keeps it. -/

namespace Sys2Proof.Machine

/-! ## The two parts of the invariant -/

/-- The part of the invariant that speaks of the registers (R30(a), (b), R34). -/
def State.MessageOk (s : State) : Prop := s.msg.Ok ∧ (s.keyed = false → s.msg = MsgState.empty)

theorem State.inv_iff {s : State} : s.Inv ↔ s.MessageOk ∧ portsOk s = true := and_assoc.symm

theorem State.messageOk_of_keyed {s : State} (hk : s.keyed = true) (h : s.msg.Ok) : s.MessageOk :=
  ⟨h, by simp [hk]⟩

theorem State.messageOk_of_empty {s : State} (h : s.msg = MsgState.empty) : s.MessageOk :=
  ⟨h ▸ empty_ok, fun _ => h⟩

theorem portsOk_of_idle {s : State} (hf : s.inflight = none) :
    portsOk s = true ↔ ∀ r, s.rsp = some r → r.status = .ok ∨ r.data = 0 := by
  cases hr : s.rsp <;> simp [portsOk, hf, hr]

theorem portsOk_of_inflight {s : State} {f : Inflight} (hf : s.inflight = some f) :
    portsOk s = true ↔ inflightOk f s = true ∧ s.rsp = none := by
  cases hr : s.rsp <;> simp [portsOk, hf, hr]

/-- Settles O46: nothing is in flight or answered, and the message is empty. -/
theorem invariantHoldsAtReset : Obligations.InvariantHoldsAtReset :=
  State.inv_iff.mpr ⟨State.messageOk_of_empty rfl, rfl⟩

theorem State.inv_hardwareReset (s : State) : s.hardwareReset.Inv :=
  State.inv_iff.mpr ⟨State.messageOk_of_empty rfl, rfl⟩

/-! ## A command that responds and one that waits -/

theorem State.inv_respond {s : State} {st : Status} {d : Block} (hm : s.MessageOk) (hf : s.inflight = none)
    (hd : st = .ok ∨ d = 0) : (s.respond st d).Inv := by
  refine State.inv_iff.mpr ⟨hm, (portsOk_of_idle (s := s.respond st d) hf).mpr ?_⟩
  rintro r ⟨⟩
  exact hd

theorem State.inv_raise {s : State} (hm : s.MessageOk) (hf : s.inflight = none) (e : Status) : (s.raise e).Inv :=
  State.inv_respond hm hf (.inr rfl)

theorem State.inv_waiting {s : State} {f : Inflight} (hm : s.MessageOk) (hp : s.rsp = none)
    (hok : inflightOk f s = true) : State.Inv { s with inflight := some f } :=
  State.inv_iff.mpr ⟨hm, (portsOk_of_inflight rfl).mpr ⟨hok, hp⟩⟩

theorem inv_finishInit {s : State} (hf : s.inflight = none) : (finishInit s).Inv :=
  State.inv_respond (State.messageOk_of_empty rfl) hf (.inl rfl)

theorem inv_finishUpdate {s : State} (m : List Byte) (hm : s.MessageOk) (hk : s.keyed = true)
    (hf : s.inflight = none) : (finishUpdate m s).Inv :=
  State.inv_respond (State.messageOk_of_keyed hk (absorb_ok s.encrypt m hm.1)) hf (.inl rfl)

theorem inv_finishFinal {s : State} (hm : s.MessageOk) (hf : s.inflight = none) : (finishFinal s).Inv :=
  State.inv_respond hm hf (.inl rfl)

/-- INIT, UPDATE and FINAL alone are in flight, the latter two with an engine. -/
theorem inflightOk_cases {f : Inflight} {s : State} (h : inflightOk f s = true) :
    f.cmd = .init ∨ (∃ m, f.cmd = .update m ∧ s.keyed = true) ∨ f.cmd = .final := by
  cases hc : f.cmd with
  | init => simp
  | update m => exact .inr (.inl ⟨m, rfl, by simp_all [inflightOk]⟩)
  | final => simp
  | reset | tagsize | cmp a b => simp [inflightOk, hc] at h

theorem inv_finishCommand {f : Inflight} {s : State} (hm : s.MessageOk) (hf : s.inflight = none)
    (hok : inflightOk f s = true) : (finishCommand f.cmd s).Inv := by
  rcases inflightOk_cases hok with e | ⟨m, e, hk⟩ | e <;> rw [e]
  · exact inv_finishInit hf
  · exact inv_finishUpdate m hm hk hf
  · exact inv_finishFinal hm hf

/-! ## The turns of a step -/

/-- A well-formed command on an idle engine. -/
theorem exec_inv {i : Instr} {s : State} (hwf : i.wf = true) (hm : s.MessageOk) (hf : s.inflight = none)
    (hp : s.rsp = none) : ∃ t, exec i s = .next t ∧ t.Inv := by
  cases i with
  | init =>
    rcases execInit_cases s with ⟨_, e⟩ | ⟨_, _, e⟩ | ⟨_, _, e⟩
    · exact ⟨_, e, State.inv_raise (s := s.dropEngine) (State.messageOk_of_empty rfl) hf _⟩
    · exact ⟨_, e, inv_finishInit hf⟩
    · exact ⟨_, e, State.inv_waiting hm hp rfl⟩
  | update m =>
    rcases execUpdate_cases m s with ⟨_, e⟩ | ⟨hk, _, e⟩ | ⟨hk, hflush, _, e⟩
    · exact ⟨_, e, State.inv_raise hm hf _⟩
    · exact ⟨_, e, inv_finishUpdate m hm hk hf⟩
    · exact ⟨_, e, State.inv_waiting hm hp (by simp [inflightOk, hk, hflush, hwf])⟩
  | final =>
    rcases execFinal_cases s with ⟨_, e⟩ | ⟨_, _, e⟩ | ⟨hk, _, e⟩
    · exact ⟨_, e, State.inv_raise hm hf _⟩
    · exact ⟨_, e, inv_finishFinal hm hf⟩
    · exact ⟨_, e, State.inv_waiting hm hp (by simp [inflightOk, hk])⟩
  | reset =>
    rcases execReset_cases s with ⟨_, e⟩ | ⟨_, e⟩
    · exact ⟨_, e, State.inv_raise hm hf _⟩
    · exact ⟨_, e, State.inv_respond (State.messageOk_of_empty rfl) hf (.inl rfl)⟩
  | tagsize => exact ⟨_, rfl, State.inv_respond hm hf (.inl rfl)⟩
  | cmp a b => exact ⟨_, rfl, State.inv_respond hm hf (.inl rfl)⟩

/-- Taking the response of a proper state leaves a proper one. -/
theorem State.inv_withoutRsp {s : State} (h : s.Inv) : State.Inv { s with rsp := none } := by
  obtain ⟨hm, hports⟩ := State.inv_iff.mp h
  refine State.inv_iff.mpr ⟨hm, ?_⟩
  rcases hf : s.inflight with _ | f
  · exact (portsOk_of_idle rfl).mpr (by simp)
  · exact (portsOk_of_inflight rfl).mpr ⟨((portsOk_of_inflight hf).mp hports).1, rfl⟩

theorem State.inv_nextInput {s : State} (h : s.Inv) : s.nextInput.Inv := by
  rcases s.nextInput_cases with ⟨_, e⟩ | ⟨_, _, _, e⟩ | ⟨_, _, e⟩ | ⟨_, _, _, e⟩ | ⟨_, _, e⟩ <;> rw [e]
  · exact h
  · exact h
  · exact State.inv_withoutRsp h
  · exact h
  · exact State.inv_hardwareReset _

theorem inv_serveCipher {f : Inflight} {s : State} (h : s.Inv) (hf : s.inflight = some f) : (serveCipher f s).Inv := by
  obtain ⟨hm, hports⟩ := State.inv_iff.mp h
  obtain ⟨hok, hp⟩ := (portsOk_of_inflight hf).mp hports
  rcases serveCipher_cases f s with ⟨_, _, e⟩ | ⟨_, _, _, e⟩ | ⟨_, e⟩ <;> rw [e]
  · exact inv_finishCommand (s := { s with inflight := none }) hm rfl hok
  · exact State.inv_waiting hm hp hok
  · exact State.inv_nextInput h

/-- Settles O47: each turn a step can be keeps the invariant; an accepted command is well formed because it decoded. -/
theorem stepKeepsTheInvariant : Obligations.StepKeepsTheInvariant := by
  intro s t h ht
  obtain ⟨hm, -⟩ := State.inv_iff.mp h
  rcases step_cases s with
    ⟨rest, _, e⟩ | ⟨_, ⟨f, hf, e⟩ | ⟨c, i, hf, hp, _, hd, e⟩ | ⟨_, _, hf, _, _, _, e⟩ | ⟨_, _, e⟩⟩
  · obtain rfl := Host.Outcome.next.inj (e.symm.trans ht)
    exact State.inv_hardwareReset _
  · obtain rfl := Host.Outcome.next.inj (e.symm.trans ht)
    exact inv_serveCipher h hf
  · obtain ⟨hwf, _⟩ := encodeOfDecodeKeepsHeader c i hd
    obtain ⟨u, hu, hinv⟩ := exec_inv (s := { s with cmd := none }) hwf hm hf hp
    obtain rfl := Host.Outcome.next.inj ((e.trans hu).symm.trans ht)
    exact hinv
  · obtain rfl := Host.Outcome.next.inj (e.symm.trans ht)
    exact State.inv_raise (s := { s with cmd := none }) hm hf _
  · obtain rfl := Host.Outcome.next.inj (e.symm.trans ht)
    exact State.inv_nextInput h

end Sys2Proof.Machine
end

section
/-! SUPPORT. Which commands make a cipher request and which status each command answers with (20_memory.md R57, 60_exceptions.md
R182 to R185), and what a late answer gives (20_memory.md R55). -/

namespace Sys2Proof.Machine

/-! ## What a command is, seen from the ports -/

/-- The block a command sends to the cipher, if it makes a request (20_memory.md R57). -/
def requestOf (i : Instr) (s : State) : Option Block :=
  match i with
  | .init => if s.cipher.keyOk then some 0 else none
  | .update m => if s.keyed && flushes s.n m then some (flushBlock s.msg m) else none
  | .final => if s.keyed then some (finalRequest s) else none
  | .reset => none
  | .tagsize => none
  | .cmp _ _ => none

/-- The status a command answers with, once it does (60_exceptions.md R182, R183, R185). -/
def statusOf (i : Instr) (s : State) : Status :=
  match i with
  | .init => if s.cipher.keyOk then .ok else .errKey
  | .update _ => if s.keyed then .ok else .errNotKeyed
  | .final => if s.keyed then .ok else .errNotKeyed
  | .reset => if s.keyed then .ok else .errNotKeyed
  | .tagsize => .ok
  | .cmp _ _ => .ok

/-- `i` was issued in `s` and responded in `t`: its status, data 0 on an error, and no change to what is in flight. -/
def Responded (i : Instr) (s t : State) : Prop :=
  t.inflight = s.inflight ∧ ∃ d, t.rsp = some ⟨statusOf i s, d⟩ ∧ (statusOf i s ≠ .ok → d = 0)

theorem responded_raise {i : Instr} {s u : State} {e : Status} (hu : u.inflight = s.inflight) (he : statusOf i s = e) :
    Responded i s (u.raise e) :=
  ⟨hu, 0, by rw [he]; rfl, fun _ => rfl⟩

theorem responded_respond_ok {i : Instr} {s u : State} (d : Block) (hu : u.inflight = s.inflight)
    (hok : statusOf i s = .ok) : Responded i s (u.respond .ok d) :=
  ⟨hu, d, by rw [hok]; rfl, fun h => absurd hok h⟩

/-- Every command waits on its request, the cipher being silent, or responds: it makes none, or the cipher answers. -/
theorem exec_cases (i : Instr) (s : State) :
    (∃ v, requestOf i s = some v ∧ s.cipherAnswers = false ∧
      exec i s = .next { s with inflight := some ⟨i, v, s.cipher.reqReady⟩ }) ∨
    ((requestOf i s = none ∨ s.cipherAnswers = true) ∧ ∃ t, exec i s = .next t ∧ Responded i s t) := by
  cases i with
  | init =>
    rcases execInit_cases s with ⟨hk, e⟩ | ⟨hk, ha, e⟩ | ⟨hk, ha, e⟩
    · exact .inr ⟨.inl (by simp [requestOf, hk]), _, e, responded_raise rfl (by simp [statusOf, hk])⟩
    · exact .inr ⟨.inr ha, _, e, responded_respond_ok 0 rfl (by simp [statusOf, hk])⟩
    · exact .inl ⟨0, by simp [requestOf, hk], ha, e⟩
  | update m =>
    rcases execUpdate_cases m s with ⟨hk, e⟩ | ⟨hk, hf, e⟩ | ⟨hk, hf, ha, e⟩
    · exact .inr ⟨.inl (by simp [requestOf, hk]), _, e, responded_raise rfl (by simp [statusOf, hk])⟩
    · exact .inr ⟨hf.imp_left (fun hf => by simp [requestOf, hf]), _, e,
        responded_respond_ok _ rfl (by simp [statusOf, hk])⟩
    · exact .inl ⟨_, by simp [requestOf, hk, hf], ha, e⟩
  | final =>
    rcases execFinal_cases s with ⟨hk, e⟩ | ⟨hk, ha, e⟩ | ⟨hk, ha, e⟩
    · exact .inr ⟨.inl (by simp [requestOf, hk]), _, e, responded_raise rfl (by simp [statusOf, hk])⟩
    · exact .inr ⟨.inr ha, _, e, responded_respond_ok _ rfl (by simp [statusOf, hk])⟩
    · exact .inl ⟨_, by simp [requestOf, hk], ha, e⟩
  | reset =>
    rcases execReset_cases s with ⟨hk, e⟩ | ⟨hk, e⟩
    · exact .inr ⟨.inl rfl, _, e, responded_raise rfl (by simp [statusOf, hk])⟩
    · exact .inr ⟨.inl rfl, _, e, responded_respond_ok 0 rfl (by simp [statusOf, hk])⟩
  | tagsize => exact .inr ⟨.inl rfl, _, rfl, responded_respond_ok _ rfl rfl⟩
  | cmp a b => exact .inr ⟨.inl rfl, _, rfl, responded_respond_ok _ rfl rfl⟩

/-! ## Statuses -/

theorem statusOf_eq_errKey_iff {i : Instr} {s : State} :
    statusOf i s = .errKey ↔ i = .init ∧ s.cipher.keyOk = false := by
  cases i with
  | init => cases hk : s.cipher.keyOk <;> simp [statusOf, hk]
  | update m | final | reset => cases hk : s.keyed <;> simp [statusOf, hk]
  | tagsize | cmp a b => simp [statusOf]

theorem statusOf_of_keyed {i : Instr} {s : State} (hk : s.keyed = true) (hi : i ≠ .init) : statusOf i s = .ok := by
  cases i with
  | init => exact absurd rfl hi
  | update m | final | reset | tagsize | cmp a b => simp [statusOf, hk]

theorem exec_init_of_no_key {s : State} (hk : s.cipher.keyOk = false) :
    exec .init s = .next (s.dropEngine.raise .errKey) := by
  rcases execInit_cases s with ⟨_, e⟩ | ⟨h, _⟩ | ⟨h, _⟩
  · exact e
  · simp [hk] at h
  · simp [hk] at h

/-- Settles O17: the failed INIT drops the engine; a waiting command has no status yet, and ERR_KEY is no other one's status. -/
theorem initWithoutKeyFails : Obligations.InitWithoutKeyFails := by
  refine ⟨fun s hk => exec_init_of_no_key hk, fun i s t d hp h hrsp => ?_⟩
  rcases exec_cases i s with ⟨v, _, _, e⟩ | ⟨_, u, e, _, d', hd, _⟩
  · obtain rfl := Host.Outcome.next.inj (e.symm.trans h)
    simp [hp] at hrsp
  · obtain rfl := Host.Outcome.next.inj (e.symm.trans h)
    obtain ⟨hstatus, _⟩ : statusOf i s = .errKey ∧ d' = d := by simpa [hd] using hrsp
    exact statusOf_eq_errKey_iff.mp hstatus

/-- Settles O36: with an answering cipher every command responds, and its status is the listed one. -/
theorem legalCommandsRespondAsListed : Obligations.LegalCommandsRespondAsListed := by
  intro i s ha
  rcases exec_cases i s with ⟨_, _, hsilent, _⟩ | ⟨_, t, e, hin, d, hd, herr⟩
  · simp [ha] at hsilent
  · refine ⟨t, _, e, hd, hin, statusOf_of_keyed, ?_, ?_, herr⟩
    · rintro (rfl | ⟨a, b, rfl⟩) <;> rfl
    · rintro rfl
      rfl

/-! ## Requests -/

theorem requestOf_eq_none_iff {i : Instr} {s : State} :
    requestOf i s = none ↔
      ((i = .init ∧ s.cipher.keyOk = false) ∨
       (∃ m, i = .update m ∧ (s.keyed = false ∨ s.n.toNat + m.length ≤ 16)) ∨
       (i = .final ∧ s.keyed = false) ∨ i = .reset ∨ i = .tagsize ∨ ∃ a b, i = .cmp a b) := by
  cases i with
  | init => simp [requestOf]
  | update m => cases hk : s.keyed <;> simp [requestOf, hk, flushes_eq_false_iff]
  | final => simp [requestOf]
  | reset | tagsize | cmp a b => simp [requestOf]

theorem requestOf_init {s : State} {v : Block} (h : requestOf .init s = some v) : s.cipher.keyOk = true ∧ v = 0 := by
  simp only [requestOf, Option.ite_none_right_eq_some, Option.some.injEq] at h
  exact ⟨h.1, h.2.symm⟩

theorem requestOf_update {m : List Byte} {s : State} {v : Block} (h : requestOf (.update m) s = some v) :
    s.keyed = true ∧ 16 < s.n.toNat + m.length ∧ v = flushBlock s.msg m := by
  simp only [requestOf, Option.ite_none_right_eq_some, Option.some.injEq, Bool.and_eq_true, flushes_iff] at h
  obtain ⟨⟨hk, hover⟩, rfl⟩ := h
  exact ⟨hk, hover, rfl⟩

theorem requestOf_final {s : State} {v : Block} (h : requestOf .final s = some v) :
    s.keyed = true ∧ v = finalRequest s := by
  simp only [requestOf, Option.ite_none_right_eq_some, Option.some.injEq] at h
  exact ⟨h.1, h.2.symm⟩

theorem byteOf_flushBlock {a : MsgState} {m : List Byte} (h : 16 < a.n.toNat + m.length) {j : Nat} (hj : j < 16) :
    byteOf (flushBlock a m) j =
      byteOf a.x j ^^^ (if j < a.n.toNat then byteOf a.p j else m.getD (j - a.n.toNat) 0) := by
  rw [flushBlock, byteOf_xor, byteOf_copyBytes_take_room h hj]

/-- Settles O38: a waiting command holds the block its rule forms, which is described byte by byte; one that makes no request
responds. -/
theorem silentCipherHoldsExactlyTheRequestingCommands : Obligations.SilentCipherHoldsExactlyTheRequestingCommands := by
  intro i s ha hin hp
  rw [← requestOf_eq_none_iff]
  rcases exec_cases i s with ⟨v, hv, _, e⟩ | ⟨hnone, t, e, htin, d, hd, _⟩
  · refine ⟨_, e, by simp [hv], ?_, by simp⟩
    rintro f ⟨⟩
    refine ⟨rfl, rfl, rfl, ?_, ?_, ?_, ?_⟩
    · rintro rfl
      exact (requestOf_init hv).2
    · rintro m rfl _ j hj
      obtain ⟨_, hover, rfl⟩ := requestOf_update hv
      exact byteOf_flushBlock (a := s.msg) hover hj
    · rintro rfl hn
      obtain ⟨_, rfl⟩ := requestOf_final hv
      exact scratchBlock_of_full s.k1 s.k2 (a := s.msg) hn
    · rintro rfl hn j hj
      obtain ⟨_, rfl⟩ := requestOf_final hv
      exact byteOf_scratchBlock_of_lt s.k1 s.k2 (a := s.msg) hn hj
  · have hno : requestOf i s = none := hnone.resolve_right fun h => by simp [ha] at h
    rw [hin] at htin
    exact ⟨t, e, by simp [htin, hno], by simp [htin], fun _ => by simp [hd]⟩

/-! ## Late answers -/

/-- A command in flight whose request is taken and answered in the step ends in it, hardware reset not being next. -/
theorem step_of_inflight_answered {s : State} {f : Inflight} (hf : s.inflight = some f)
    (hrst : s.inputs.head? ≠ some .rst) (ha : s.cipherAnswers = true) :
    step s = .next (finishCommand f.cmd { s with inflight := none }) := by
  obtain ⟨hready, hvalid⟩ : s.cipher.reqReady = true ∧ s.cipher.rspValid = true := by
    simpa [State.cipherAnswers] using ha
  rw [step_of_inflight hf hrst]
  simp [serveCipher, hready, hvalid]

/-- Whether a command makes a request, and which, depends on the cipher by `key_ok` alone. -/
theorem requestOf_withCipher (i : Instr) {s : State} {c : Cipher} (h : c.keyOk = s.cipher.keyOk) :
    requestOf i { s with cipher := c } = requestOf i s := by
  cases i with
  | init => simp [requestOf, h]
  | update m | final | reset | tagsize | cmp a b => rfl

theorem exec_of_request_answered {i : Instr} {s : State} {v : Block} (hv : requestOf i s = some v)
    (ha : s.cipherAnswers = true) : exec i s = .next (finishCommand i s) := by
  cases i with
  | init => exact exec_init_of_answers (requestOf_init hv).1 ha
  | update m => exact exec_update_of_answers m (requestOf_update hv).1 ha
  | final => exact exec_final_of_answers (requestOf_final hv).1 ha
  | reset | tagsize | cmp a b => simp [requestOf] at hv

/-- Settles O39: both ways the command ends as `finishCommand`, in the same state with the new cipher. -/
theorem lateAnswerGivesTheSameResult : Obligations.LateAnswerGivesTheSameResult := by
  intro i s t f c hin hrst h hf hready hvalid hkey
  rcases exec_cases i s with ⟨v, hv, _, e⟩ | ⟨_, u, e, huin, _⟩
  · obtain rfl := Host.Outcome.next.inj (e.symm.trans h)
    have answers : State.cipherAnswers { s with cipher := c } = true := by
      simp [State.cipherAnswers, hready, hvalid]
    have atOnce := exec_of_request_answered ((requestOf_withCipher i hkey).trans hv) answers
    have late := step_of_inflight_answered (s := { s with inflight := some ⟨i, v, s.cipher.reqReady⟩, cipher := c })
      rfl hrst answers
    rw [← hin] at late
    exact late.trans atOnce.symm
  · obtain rfl := Host.Outcome.next.inj (e.symm.trans h)
    simp [huin, hin] at hf

end Sys2Proof.Machine
end
